-- ==== Sys2Proof/Word.lean ====
section
/-! DEFINITION. The widths of this hardware (00_scope R9; 30_encoding R46, R52). -/

namespace Sys2Proof

/-- A byte, 8 bits, unsigned (R9). Register contents, entries of PV and KEYBUF, and indices into them. -/
abbrev Byte := BitVec 8

/-- A command word, 32 bits (R46). -/
abbrev CmdWord := BitVec 32

/-- A response word, 16 bits (R52). -/
abbrev RspWord := BitVec 16

end Sys2Proof
end

