-- ==== Sys2Proof/Config.lean ====
section
/-! DEFINITION. The parameters of 00_scope R7 and R8 at the values the spec takes, and the two points the spec leaves to the
platform (92_eei_decisions D33). Log entries 9 and 10. -/

namespace Sys2Proof.Config

/-- PV_SIZE, also the size of KEYBUF (R7, R21). -/
def pvSize : Nat := 256

/-- KEY_MAX: the longest key, in bytes (R8, D7). -/
def keyMax : Nat := 256

/-- MAX_REJECTIONS: so at most 12 attempts in one keyrand call (R7). -/
def maxRejections : Nat := 11

/-- RSUM_INIT (R8, D9). -/
def rsumInit : Byte := 0

/-- KEYPOS_INIT (R8, D9). -/
def keyposInit : BitVec 9 := 0

/-- DIGEST_PV_INIT: the reverse identity (R8, R77, R78, D14; 90_conflicts C1). -/
def digestPv (k : Byte) : Byte := 255 - k

/-- DIGEST_INIT: radix, pride, chasm, left, right after INITD (R7). -/
def digestRadix : Byte := 1
/-- See `digestRadix`. -/
def digestPride : Byte := 3
/-- See `digestRadix`. -/
def digestChasm : Byte := 5
/-- See `digestRadix`. -/
def digestLeft : Byte := 7
/-- See `digestRadix`. -/
def digestRight : Byte := 11

/-- The number of whitening steps, WHITEN_SEQ 255 down to 0 (R7). -/
def whitenSteps : Nat := 256

/-- SQUEEZE_BYTE (R7). -/
def squeezeByte : Byte := 0

/-- CMD_PORT_ADDR: where a platform places the command port. Open (R36, D33): no value, and no rule reads it. -/
opaque cmdPortAddr : Nat

/-- RSP_PORT_ADDR: where a platform places the response port. Open (R36, D33): no value, and no rule reads it. -/
opaque rspPortAddr : Nat

end Sys2Proof.Config
end

