-- ==== Sys2Proof/Syntax.lean ====
section
/-! DEFINITION. The commands of the set SCE-1 (30_encoding R46 to R49), one constructor a row of the opcode table, and the
forms that have no encoding of their own: the pseudo-instructions (R56) and the lines of the assembler (R55). -/

namespace Sys2Proof

/-- The eight commands (R49). Operands are the fields of R47, unsigned (R48). -/
inductive Instr where
  /-- LDK idx, byte (R63). -/
  | ldk (idx byte : Byte)
  /-- INITK len (R64, R66). -/
  | initk (len : BitVec 16)
  /-- INITD (R77). -/
  | initd
  /-- ENCB byte (R80). -/
  | encb (byte : Byte)
  /-- DECB byte (R81). -/
  | decb (byte : Byte)
  /-- FINAL len (R95). -/
  | final (len : BitVec 16)
  /-- SCRUB (R100). -/
  | scrub
  /-- STAT (R102). -/
  | stat
  deriving DecidableEq, Repr

/-- The pseudo-instructions (R56). -/
inductive Pseudo where
  /-- KEY b0, ..., b(L-1) with 1 to 256 bytes. -/
  | key (bytes : List Byte)
  /-- ENCS b0, ..., b(n-1). -/
  | encs (bytes : List Byte)
  /-- DECS b0, ..., b(n-1). -/
  | decs (bytes : List Byte)
  /-- ABSORB b0, ..., b(n-1): the words of ENCS, whose outputs the host discards. -/
  | absorb (bytes : List Byte)
  deriving DecidableEq, Repr

/-- The mnemonics of the assembler's text: commands (R55) and pseudo-instructions (R56). -/
inductive Mnemonic where
  | ldk | initk | initd | encb | decb | final | scrub | stat
  | key | encs | decs | absorb
  deriving DecidableEq, Repr

/-- One line of assembler text after reading: a mnemonic and its operands as numbers, not yet checked against any field
(R55: the assembler rejects an operand outside its field). A text operand stands as its ASCII codes (R56). -/
structure AsmLine where
  mnemonic : Mnemonic
  operands : List Nat
  deriving DecidableEq, Repr

end Sys2Proof
end

