-- ==== Sys2Proof/WellFormed.lean ====
section
/-! DEFINITION. Which terms are instructions of the hardware: the operand constraint of 30_encoding R49, and the length
condition of the pseudo-instruction KEY (R56). -/

namespace Sys2Proof

/-- INITK takes a length of at most KEY_MAX (R48, R49); no other command has an operand constraint. -/
def Instr.wellFormed : Instr → Bool
  | .ldk _ _ => true
  | .initk len => decide (len.toNat ≤ Config.keyMax)
  | .initd => true
  | .encb _ => true
  | .decb _ => true
  | .final _ => true
  | .scrub => true
  | .stat => true

/-- KEY takes 1 to KEY_MAX bytes (R56); the other pseudo-instructions take any number, none included. -/
def Pseudo.wellFormed : Pseudo → Bool
  | .key bytes => decide (1 ≤ bytes.length ∧ bytes.length ≤ Config.keyMax)
  | .encs _ => true
  | .decs _ => true
  | .absorb _ => true

end Sys2Proof
end

