-- ==== Sys2Proof/Decode.lean ====
section
/-! DEFINITION. The decoder of 30_encoding R50, total on 32-bit words, and the encoder written from the same formats (R46,
R47, R49); the opcode table as data (R49); the expansion of pseudo-instructions (R56). -/

namespace Sys2Proof

/-! ## The fields of a command word (R47) -/

/-- `op`, bits 31:24. -/
def opField (w : CmdWord) : Byte := w.extractLsb' 24 8

/-- Bits 23:16, reserved in every format. -/
def zeroField (w : CmdWord) : Byte := w.extractLsb' 16 8

/-- `idx`, bits 15:8; reserved in format B. -/
def idxField (w : CmdWord) : Byte := w.extractLsb' 8 8

/-- `byte`, bits 7:0. -/
def byteField (w : CmdWord) : Byte := w.extractLsb' 0 8

/-- `len`, bits 15:0; reserved in format Z. -/
def lenField (w : CmdWord) : BitVec 16 := w.extractLsb' 0 16

/-! ## Decoding -/

/-- Why a word is illegal (R51). Every reason leads to the same IllegalCommand (R107). -/
inductive DecodeError where
  /-- `op` is 0x00 or 0x09 to 0xFF. -/
  | unusedOpcode
  /-- A `zero` bit of the format is 1. -/
  | reservedBits
  /-- INITK with `len` above KEY_MAX. -/
  | keyTooLong
  deriving DecidableEq, Repr

/-- The decoder, in the order of R50. -/
def decode (w : CmdWord) : Except DecodeError Instr :=
  if zeroField w ≠ 0 then .error .reservedBits
  else
    match (opField w).toNat with
    | 0x01 => .ok (.ldk (idxField w) (byteField w))
    | 0x02 => if (lenField w).toNat > Config.keyMax then .error .keyTooLong else .ok (.initk (lenField w))
    | 0x03 => if lenField w ≠ 0 then .error .reservedBits else .ok .initd
    | 0x04 => if idxField w ≠ 0 then .error .reservedBits else .ok (.encb (byteField w))
    | 0x05 => if idxField w ≠ 0 then .error .reservedBits else .ok (.decb (byteField w))
    | 0x06 => .ok (.final (lenField w))
    | 0x07 => if lenField w ≠ 0 then .error .reservedBits else .ok .scrub
    | 0x08 => if lenField w ≠ 0 then .error .reservedBits else .ok .stat
    | _ => .error .unusedOpcode

/-- The instruction the decoder reads from the bits `w` of an opcode-table row: the hardware takes a command as one 32-bit
unit (R33, R46), whose bit 0 is the least significant; bits from `nbits` on are 0. -/
def decodeTableWord (nbits w : Nat) : Option Instr :=
  match decode (BitVec.ofNat 32 (w % 2 ^ nbits)) with
  | .ok i => some i
  | .error _ => none

/-! ## Encoding -/

/-- Format Z (R46). -/
def formatZ (op : Byte) : CmdWord := op ++ (0 : BitVec 24)

/-- Format B (R46). -/
def formatB (op byte : Byte) : CmdWord := op ++ (0 : BitVec 16) ++ byte

/-- Format K (R46). -/
def formatK (op idx byte : Byte) : CmdWord := op ++ (0 : BitVec 8) ++ idx ++ byte

/-- Format L (R46). -/
def formatL (op : Byte) (len : BitVec 16) : CmdWord := op ++ (0 : BitVec 8) ++ len

/-- The word of a command (R46, R49). -/
def encode : Instr → CmdWord
  | .ldk idx byte => formatK 0x01 idx byte
  | .initk len => formatL 0x02 len
  | .initd => formatZ 0x03
  | .encb byte => formatB 0x04 byte
  | .decb byte => formatB 0x05 byte
  | .final len => formatL 0x06 len
  | .scrub => formatZ 0x07
  | .stat => formatZ 0x08

/-! ## The opcode table as data (R49) -/

/-- A row of R49: a word `w` selects it when `w &&& mask = pattern`. -/
structure OpcodeRow where
  mnemonic : Mnemonic
  pattern : CmdWord
  mask : CmdWord
  deriving DecidableEq, Repr

/-- A word selects a row (R49). -/
def OpcodeRow.selects (r : OpcodeRow) (w : CmdWord) : Bool := w &&& r.mask == r.pattern

/-- The rows of R49, in its order. -/
def opcodeRows : List OpcodeRow :=
  [ ⟨.ldk,   0x01000000, 0xFFFF0000⟩,
    ⟨.initk, 0x02000000, 0xFFFF0000⟩,
    ⟨.initd, 0x03000000, 0xFFFFFFFF⟩,
    ⟨.encb,  0x04000000, 0xFFFFFF00⟩,
    ⟨.decb,  0x05000000, 0xFFFFFF00⟩,
    ⟨.final, 0x06000000, 0xFFFF0000⟩,
    ⟨.scrub, 0x07000000, 0xFFFFFFFF⟩,
    ⟨.stat,  0x08000000, 0xFFFFFFFF⟩ ]

/-- The row a command belongs to, by its mnemonic. -/
def Instr.mnemonic : Instr → Mnemonic
  | .ldk _ _ => .ldk
  | .initk _ => .initk
  | .initd => .initd
  | .encb _ => .encb
  | .decb _ => .decb
  | .final _ => .final
  | .scrub => .scrub
  | .stat => .stat

/-! ## Pseudo-instructions (R56) -/

/-- `LDK k, b0; LDK k+1, b1; ...`, the supply of KEY. -/
def keySupply (k : Nat) : List Byte → List Instr
  | [] => []
  | b :: bs => .ldk (BitVec.ofNat 8 k) b :: keySupply (k + 1) bs

/-- The real commands a pseudo-instruction stands for, in order (R56). -/
def Pseudo.expand : Pseudo → List Instr
  | .key bytes => keySupply 0 bytes ++ [.initk (BitVec.ofNat 16 bytes.length)]
  | .encs bytes => bytes.map .encb
  | .decs bytes => bytes.map .decb
  | .absorb bytes => bytes.map .encb

end Sys2Proof
end

