-- ==== Sys2Proof/Machine/State.lean ====
section
/-! DEFINITION. The state of one engine instance and of its ports (10_state; 30_encoding R45, R52; 70_reset R121), the reasons
the model can stop, and the state after reset (R28). -/

namespace Sys2Proof.Machine

/-- One of the two internal memories (R27): cells (index, byte) in canonical form, indices strictly rising and below 256, no
cell holding 0. An index not listed reads 0, the reset content of every entry (R28). Log entry 3. -/
abbrev Memory := List Host.Cell

/-- MODE (R20): no session, or how the session was made. The code 0b11 is never produced and has no constructor. -/
inductive Mode where
  /-- 0b00: after reset or SCRUB, before any successful INITK or INITD. -/
  | idle
  /-- 0b01: the last successful initialisation was INITK. -/
  | keyed
  /-- 0b10: the last successful initialisation was INITD. -/
  | digest
  deriving DecidableEq, Repr

/-- The values that live inside one command (R23), each in its width. Every command ends with all of them zero (D13).
Log entry 2. -/
structure Transients where
  rsum : Byte
  keypos : BitVec 9
  i : Byte
  mask : Byte
  rej : BitVec 4
  u : Byte
  toswap : Byte
  tmp : Byte
  t : Byte
  a : Byte
  b : Byte
  mix : Byte
  w : BitVec 9
  n : BitVec 16
  deriving DecidableEq, Repr

/-- Every transient at zero (R23, R28). -/
def Transients.zero : Transients :=
  { rsum := 0, keypos := 0, i := 0, mask := 0, rej := 0, u := 0, toswap := 0, tmp := 0,
    t := 0, a := 0, b := 0, mix := 0, w := 0, n := 0 }

/-- What the host can do at the ports (R127). -/
inductive HostAct where
  /-- `cmd_valid` goes high with `cmd_data = w`, and stays until the word is accepted (R45). -/
  | raiseCmd (w : CmdWord)
  /-- `cmd_valid` goes low before the word was accepted (log entry 6). -/
  | dropCmd
  /-- `rsp_ready` is high for one transfer: the word offered, if any, is taken (R52). -/
  | takeRsp
  /-- `rst` goes high (R121). -/
  | assertRst
  /-- `rst` goes low (R121). -/
  | releaseRst
  deriving DecidableEq, Repr

/-- The engine and its ports. The first eight fields are the State tuple at the head of 10_state; `transients` is R23; the
next three are the ports (R45, R52, R121); `host` is the model's own: what the host will do, one action a step (log entry 1). -/
structure State where
  /-- PV, the permutation (R13). -/
  pv : Memory
  /-- R15. -/
  radix : Byte
  /-- R16. -/
  pride : Byte
  /-- R17. -/
  chasm : Byte
  /-- R18. -/
  left : Byte
  /-- R19. -/
  right : Byte
  /-- R20. -/
  mode : Mode
  /-- KEYBUF, the key buffer (R21). -/
  keybuf : Memory
  /-- R23. -/
  transients : Transients
  /-- The response words of the last command the host has not taken yet, in order (R52, R53, R128). -/
  rsp : List RspWord
  /-- `cmd_valid` and `cmd_data`: the word the host offers (R45). -/
  offered : Option CmdWord
  /-- `rst` is high (R121). -/
  inReset : Bool
  /-- What the host does next. The model's own field. -/
  host : List HostAct
  deriving DecidableEq, Repr

/-- The machine never stops with a fault: each error of the spec is a response word after which the engine goes on (R110,
R113), so this type has no constructor and nothing raises one. Safe. -/
inductive Fault : Type
  deriving DecidableEq, Repr

/-- Why the model gives a step no meaning. -/
inductive Refusal where
  /-- An instruction without a meaning; no instruction of this model is one. Safe. -/
  | notModelled (mnemonic : String)
  /-- Raised by the host's own action `raiseCmd w` while another word is offered and not accepted: the spec gives a change of
  `cmd_data` during an offered transfer no meaning (R127; 93_implementation_defined U6). Safe: nothing is proved of it. -/
  | cmdDataChanged
  deriving DecidableEq, Repr

/-- The machine right after the reset sequence (R28, R121 to R123); the host's three fields as log entry 5 says. -/
def State.reset : State :=
  { pv := [], radix := 0, pride := 0, chasm := 0, left := 0, right := 0, mode := .idle, keybuf := [],
    transients := .zero, rsp := [], offered := none, inReset := false, host := [] }

end Sys2Proof.Machine
end

