-- ==== Sys2Proof/Machine/Flags.lean ====
section
/-! DEFINITION. The engine has no flags (10_state R25). What a command reports stands in its response words, built here whole:
ERR, MODE, LAST, DV and DATA (30_encoding R52, R53). -/

namespace Sys2Proof.Machine

/-- The two bits of MODE (R20). -/
def Mode.code : Mode → BitVec 2
  | .idle => 0b00
  | .keyed => 0b01
  | .digest => 0b10

/-- The outcome of a command (R105). -/
inductive ErrCode where
  | ok
  | invalidKey
  | illegalCommand
  | noSession
  deriving DecidableEq, Repr

/-- The four bits of ERR (R105): 4 to 15 are never produced. -/
def ErrCode.code : ErrCode → BitVec 4
  | .ok => 0
  | .invalidKey => 1
  | .illegalCommand => 2
  | .noSession => 3

/-- The word of R52: ERR 15:12, MODE 11:10, LAST 9, DV 8, DATA 7:0. DV and DATA say whether there is an output byte. -/
def responseWord (e : ErrCode) (m : Mode) (last : Bool) (out : Option Byte) : RspWord :=
  match out with
  | none => e.code ++ m.code ++ BitVec.ofBool last ++ (0 : BitVec 1) ++ (0 : Byte)
  | some b => e.code ++ m.code ++ BitVec.ofBool last ++ (1 : BitVec 1) ++ b

/-- The words of a command with output bytes: LAST is 1 in the last one only (R53, k > 0). -/
def dataWords (m : Mode) : List Byte → List RspWord
  | [] => []
  | [b] => [responseWord .ok m true (some b)]
  | b :: b' :: bs => responseWord .ok m false (some b) :: dataWords m (b' :: bs)

/-- The response of a command from its error code, the mode after it and its output bytes (R53). -/
def responseWords (e : ErrCode) (m : Mode) : List Byte → List RspWord
  | [] => [responseWord e m true none]
  | b :: bs => dataWords m (b :: bs)

/-! ## Reading a response word -/

/-- ERR, bits 15:12 (R52). -/
def rspErr (w : RspWord) : BitVec 4 := w.extractLsb' 12 4
/-- MODE, bits 11:10 (R52). -/
def rspMode (w : RspWord) : BitVec 2 := w.extractLsb' 10 2
/-- LAST, bit 9 (R52). -/
def rspLast (w : RspWord) : Bool := w.getLsbD 9
/-- DV, bit 8 (R52). -/
def rspDv (w : RspWord) : Bool := w.getLsbD 8
/-- DATA, bits 7:0 (R52). -/
def rspDataField (w : RspWord) : Byte := w.extractLsb' 0 8

end Sys2Proof.Machine
end

