-- ==== Sys2Proof/Machine/Ops.lean ====
section
/-! DEFINITION. The named operations over the two memories (20_memory R31, R32), the end of a command (30_encoding R53,
10_state R23), and an error, the one exceptional event of this engine (60_exceptions R110). -/

namespace Sys2Proof.Machine

/-! ## One memory of 256 bytes -/

/-- The byte at an index: the byte last written there; 0 where none stands (R28, R31, R32). -/
def Memory.read : Memory → Byte → Byte
  | [], _ => 0#8
  | (k, v) :: m, a => if a.toNat = k then v else Memory.read m a

/-- Replace the byte at an index (R31, R32). A cell that would hold 0 is not listed. -/
def Memory.write : Memory → Byte → Byte → Memory
  | [], a, v => if v = 0#8 then [] else [(a.toNat, v)]
  | (k, w) :: m, a, v =>
    if a.toNat = k then (if v = 0#8 then Memory.write m a v else (k, v) :: m)
    else if a.toNat < k ∧ v ≠ 0#8 then (a.toNat, v) :: (k, w) :: m
    else (k, w) :: Memory.write m a v

/-- Cells `k, k+1, ..., 255` of a memory whose entry at each index is `f` of it; `n` counts the cells still to make. -/
def Memory.fillFrom (f : Byte → Byte) : Nat → Nat → Memory
  | 0, _ => []
  | n + 1, k =>
    if f (BitVec.ofNat 8 k) = 0#8 then Memory.fillFrom f n (k + 1)
    else (k, f (BitVec.ofNat 8 k)) :: Memory.fillFrom f n (k + 1)

/-- All 256 entries written: entry `k` becomes `f k`. The order of the writes cannot be observed (R67, R77, R100). -/
def Memory.fill (f : Byte → Byte) : Memory := Memory.fillFrom f 256 0

/-- All 256 entries written with 0 (R28, R100): in the canonical form, no cell is listed. -/
def Memory.zeros : Memory := []

/-- The canonical form from index `lo` on: strictly rising indices below 256, no cell holding 0. -/
def Memory.wfFrom : Nat → Memory → Bool
  | _, [] => true
  | lo, (k, v) :: m => decide (lo ≤ k) && decide (k < 256) && (v != 0#8) && Memory.wfFrom (k + 1) m

/-- The canonical form of a memory: memories in it that read alike are equal (log entry 3). -/
def Memory.wf (m : Memory) : Bool := Memory.wfFrom 0 m

/-! ## The end of a command -/

/-- Clear transients (R23, D13). -/
def clearTransients (s : State) : State := { s with transients := .zero }

/-- A command ends without error: transients cleared, and its response offered with the mode as it is now (R53). -/
def respond (out : List Byte) (s : State) : State :=
  { clearTransients s with rsp := responseWords .ok s.mode out }

/-- A command raises an error: no architectural state changes, one response word carries the code, nothing is saved
(R110). There is no handler, hence no return from one (R112): the engine is ready for the next command. -/
def raise (e : ErrCode) (s : State) : State :=
  { clearTransients s with rsp := responseWords e s.mode [] }

/-- The error a command of the session family meets before its first line: NoSession when MODE is IDLE (R108). -/
def inSession (s : State) (k : State → State) : State :=
  if s.mode = .idle then raise .noSession s else k s

/-- PV, the five registers, MODE, KEYBUF and the transients at their reset values (R28): the work of SCRUB (R100) and of the
reset sequence (R122). -/
def zeroise (s : State) : State :=
  { s with
    pv := Memory.zeros
    radix := 0, pride := 0, chasm := 0, left := 0, right := 0
    keybuf := Memory.zeros
    mode := .idle
    transients := .zero }

end Sys2Proof.Machine
end

