-- ==== Sys2Proof/Machine/Operands.lean ====
section
/-! DEFINITION. The ways an index into PV and KEYBUF is formed (20_memory R43). Operands of a command word are the fields of
30_encoding R47, taken apart in Decode (R48). -/

namespace Sys2Proof.Machine

/-- Register direct: `PV[i]` for the value `i` of a register, a transient or a constant (R43). -/
def pvAt (s : State) (i : Byte) : Byte := Memory.read s.pv i

/-- `PV[i] <- v` (R10). -/
def setPv (s : State) (i v : Byte) : State := { s with pv := Memory.write s.pv i v }

/-- The index of the sum-indexed form with two terms: `PV[i] + PV[j]` modulo 256 (R43). -/
def sumIndex2 (s : State) (i j : Byte) : Byte := pvAt s i + pvAt s j

/-- The index of the sum-indexed form with three terms (R43). -/
def sumIndex3 (s : State) (i j k : Byte) : Byte := pvAt s i + pvAt s j + pvAt s k

/-- Memory indirect: `PV[PV[b]]` (R43). -/
def pvIndirect (s : State) (b : Byte) : Byte := pvAt s (pvAt s b)

/-- Key cyclic: `KEYBUF[keypos]` (R43). keypos is 0 to 255 whenever a key byte is read (R23). -/
def keyAtPos (s : State) : Byte := Memory.read s.keybuf (s.transients.keypos.setWidth 8)

end Sys2Proof.Machine
end

