-- ==== Sys2Proof/Machine/DigestInit.lean ====
section
/-! DEFINITION. INITD (41_digest_init). -/

namespace Sys2Proof.Machine

/-- The handle of digest mode: the reverse identity and the fixed registers (R77). -/
def digestHandle (s : State) : State :=
  { s with
    pv := Memory.fill Config.digestPv
    radix := Config.digestRadix
    pride := Config.digestPride
    chasm := Config.digestChasm
    left := Config.digestLeft
    right := Config.digestRight
    mode := .digest }

/-- INITD (R77). -/
def execInitd (s : State) : Host.Outcome State Fault Refusal :=
  .next (respond [] (digestHandle s))

end Sys2Proof.Machine
end

