-- ==== Sys2Proof/Machine/Transform.lean ====
section
/-! DEFINITION. The parts index_register_update, byte_transform_encrypt_decrypt and feedback_register: the transform step, ENCB
and DECB (42_byte_transform). Each line sees the effect of the lines before it (R82, R83). -/

namespace Sys2Proof.Machine

/-- S1, S2: pride by the entry at the old radix, then radix (R82). -/
def indexUpdate (s : State) : State :=
  let s := { s with pride := s.pride + pvAt s s.radix }
  { s with radix := s.radix + 1 }

/-- S3 to S7: the four moves, with the new pride and the new radix, executed literally (R82, R85). -/
def fourMoves (s : State) : State :=
  let s := { s with transients.t := pvAt s s.right }
  let s := setPv s s.right (pvAt s s.pride)
  let s := setPv s s.pride (pvAt s s.left)
  let s := setPv s s.left (pvAt s s.radix)
  setPv s s.radix s.transients.t

/-- S8 to S11: chasm from PV after the moves, then the two indices and mix, with left and right as on entry (R82, R83). -/
def formMix (s : State) : State :=
  let s := { s with chasm := s.chasm + pvAt s s.transients.t }
  let s := { s with transients.a := sumIndex2 s s.pride s.radix }
  let s := { s with transients.b := sumIndex3 s s.left s.right s.chasm }
  { s with transients.mix := pvAt s s.transients.a ^^^ pvIndirect s s.transients.b }

/-- step(), the shared state update: S1 to S11 (R82). Its result is the transient mix. -/
def transform (s : State) : State := formMix (fourMoves (indexUpdate s))

/-- ENCB without its MODE test, emit and respond (R80; ENCB-body of R95). -/
def encbBody (byte : Byte) (s : State) : State :=
  let s := transform s
  let s := { s with right := byte ^^^ s.transients.mix }
  { s with left := byte }

/-- DECB without its MODE test, emit and respond (R81). -/
def decbBody (byte : Byte) (s : State) : State :=
  let s := transform s
  let s := { s with left := byte ^^^ s.transients.mix }
  { s with right := byte }

/-- ENCB byte (R80): the output byte is the new right. -/
def execEncb (byte : Byte) (s : State) : Host.Outcome State Fault Refusal :=
  .next (inSession s fun s => let s := encbBody byte s; respond [s.right] s)

/-- DECB byte (R81): the output byte is the new left. -/
def execDecb (byte : Byte) (s : State) : Host.Outcome State Fault Refusal :=
  .next (inSession s fun s => let s := decbBody byte s; respond [s.left] s)

end Sys2Proof.Machine
end

