-- ==== Sys2Proof/Machine/Finalize.lean ====
section
/-! DEFINITION. FINAL (43_digest_finalize). -/

namespace Sys2Proof.Machine

/-- The whitening pass from w = k-1 down to 0: each w goes through ENCB-body and its output is not emitted (R95). -/
def whiten : Nat → State → State
  | 0, s => s
  | k + 1, s =>
    let s := { s with transients.w := BitVec.ofNat 9 k }
    whiten k (encbBody (s.transients.w.setWidth 8) s)

/-- The squeeze: so many times ENCB-body of 0, the outputs in order (R95). n counts the bytes emitted. -/
def squeeze : Nat → State → State × List Byte
  | 0, s => (s, [])
  | k + 1, s =>
    let s := encbBody Config.squeezeByte { s with transients.n := s.transients.n + 1 }
    let r := squeeze k s
    (r.1, s.right :: r.2)

/-- The state and the digest bytes of FINAL len in a session (R95). -/
def finalBody (len : BitVec 16) (s : State) : State × List Byte :=
  squeeze len.toNat { whiten Config.whitenSteps s with transients.n := 0 }

/-- FINAL len (R95). -/
def execFinal (len : BitVec 16) (s : State) : Host.Outcome State Fault Refusal :=
  .next (inSession s fun s => let r := finalBody len s; respond r.2 r.1)

end Sys2Proof.Machine
end

