-- ==== Sys2Proof/Machine/KeySchedule.lean ====
section
/-! DEFINITION. The part key_schedule_fisher_yates: LDK and INITK (40_key_schedule). -/

namespace Sys2Proof.Machine

/-- LDK idx, byte (R63). -/
def execLdk (idx byte : Byte) (s : State) : Host.Outcome State Fault Refusal :=
  .next (respond [] { s with keybuf := Memory.write s.keybuf idx byte })

/-- The mask of a limit: the smallest 2^n - 1 at or above it, n from 0 (the table of R68). -/
def maskFor (limit : Byte) : Byte :=
  if limit ≤ 0 then 0
  else if limit ≤ 1 then 1
  else if limit ≤ 3 then 3
  else if limit ≤ 7 then 7
  else if limit ≤ 15 then 15
  else if limit ≤ 31 then 31
  else if limit ≤ 63 then 63
  else if limit ≤ 127 then 127
  else 255

/-- The first two lines of a draw (R69): the key byte is added, then keypos advances. -/
def drawKeyByte (s : State) : State :=
  let s := { s with transients.rsum := pvAt s s.transients.rsum + keyAtPos s }
  { s with transients.keypos := s.transients.keypos + 1 }

/-- The wraparound of a draw (R69): on the last key byte, keypos returns to 0 and the length is added modulo 256. -/
def wrapKey (len : BitVec 16) (s : State) : State :=
  if s.transients.keypos.toNat = len.toNat then
    { s with
      transients.keypos := 0
      transients.rsum := s.transients.rsum + len.setWidth 8 }
  else s

/-- One draw (R69). -/
def draw (len : BitVec 16) (s : State) : State :=
  let s := wrapKey len (drawKeyByte s)
  { s with transients.u := s.transients.mask &&& s.transients.rsum }

/-- The attempts of one keyrand call (R70, R71); the number counts the rejections still allowed. At none the attempt is the
twelfth, and its candidate is reduced modulo the limit whether or not it fits (D12). -/
def attempts (len : BitVec 16) (limit : Byte) : Nat → State → State
  | 0, s =>
    let s := draw len s
    { s with transients.toswap := s.transients.u % limit }
  | k + 1, s =>
    let s := draw len s
    if s.transients.u ≤ limit then { s with transients.toswap := s.transients.u }
    else attempts len limit k { s with transients.rej := s.transients.rej + 1 }

/-- keyrand(limit): the result stands in `toswap`; rsum and keypos advance (R71). -/
def keyrand (len : BitVec 16) (limit : Byte) (s : State) : State :=
  attempts len limit Config.maxRejections { s with transients.mask := maskFor limit, transients.rej := 0 }

/-- The exchange of `PV[i]` and `PV[toswap]` through tmp (R66, R67). -/
def exchange (s : State) : State :=
  let s := { s with transients.tmp := pvAt s s.transients.i }
  let s := setPv s s.transients.i (pvAt s s.transients.toswap)
  setPv s s.transients.toswap s.transients.tmp

/-- One position of the shuffle: keyrand with limit i, then the exchange (R67). -/
def shufflePosition (len : BitVec 16) (i : Byte) (s : State) : State :=
  exchange (keyrand len i { s with transients.i := i })

/-- Positions k-1 down to 0 (R67). -/
def shuffle (len : BitVec 16) : Nat → State → State
  | 0, s => s
  | k + 1, s => shuffle len k (shufflePosition len (BitVec.ofNat 8 k) s)

/-- The identity fill, and rsum and keypos at their first values (R67). -/
def beginSchedule (s : State) : State :=
  { s with
    pv := Memory.fill fun k => k
    transients.rsum := Config.rsumInit
    transients.keypos := Config.keyposInit }

/-- The register load from the finished permutation, right by the final rsum (R73). -/
def loadRegisters (s : State) : State :=
  { s with
    radix := pvAt s 1
    pride := pvAt s 3
    chasm := pvAt s 5
    left := pvAt s 7
    right := pvAt s s.transients.rsum
    mode := .keyed }

/-- The whole key schedule for a key of `len` bytes, 1 to 256 (R66). -/
def keySchedule (len : BitVec 16) (s : State) : State :=
  loadRegisters (shuffle len Config.pvSize (beginSchedule s))

/-- INITK len (R66). A length of 0 raises InvalidKey before any write (R65); a length above KEY_MAX is no legal word and
raises IllegalCommand (R51, R111), which the decoder sees first (log entry 7). -/
def execInitk (len : BitVec 16) (s : State) : Host.Outcome State Fault Refusal :=
  if len.toNat > Config.keyMax then .next (raise .illegalCommand s)
  else if len = 0 then .next (raise .invalidKey s)
  else .next (respond [] (keySchedule len s))

end Sys2Proof.Machine
end

