-- ==== Sys2Proof/Machine/System.lean ====
section
/-! DEFINITION. The housekeeping commands SCRUB and STAT (44_system). -/

namespace Sys2Proof.Machine

/-- SCRUB (R100). -/
def execScrub (s : State) : Host.Outcome State Fault Refusal :=
  .next (respond [] (zeroise s))

/-- STAT (R102). -/
def execStat (s : State) : Host.Outcome State Fault Refusal :=
  .next (respond [] s)

end Sys2Proof.Machine
end

