-- ==== Sys2Proof/Machine/Dispatch.lean ====
section
/-! DEFINITION. One arm a command, each a direct call of its meaning. -/

namespace Sys2Proof.Machine

def exec (i : Instr) (s : State) : Host.Outcome State Fault Refusal :=
  match i with
  | .ldk idx byte => Sys2Proof.Machine.execLdk idx byte s
  | .initk len => Sys2Proof.Machine.execInitk len s
  | .initd => Sys2Proof.Machine.execInitd s
  | .encb byte => Sys2Proof.Machine.execEncb byte s
  | .decb byte => Sys2Proof.Machine.execDecb byte s
  | .final len => Sys2Proof.Machine.execFinal len s
  | .scrub => Sys2Proof.Machine.execScrub s
  | .stat => Sys2Proof.Machine.execStat s

end Sys2Proof.Machine
end

