-- ==== Sys2Proof/Machine/Port.lean ====
section
/-! DEFINITION. The two ports and the reset input (30_encoding R45, R52; 70_reset R121, R122, R127, R128). -/

namespace Sys2Proof.Machine

/-- `cmd_ready`: true when no response word is still to be taken and `rst` is low (R45, R128). -/
def cmdReady (s : State) : Bool := s.rsp.isEmpty && !s.inReset

/-- `rsp_valid`: a response word is offered (R52). -/
def rspValid (s : State) : Bool := !s.rsp.isEmpty

/-- `rsp_data` while `rsp_valid` holds: the first word not taken, in order (R52, R127). -/
def rspData (s : State) : Option RspWord := s.rsp.head?

/-- The word accepted now: the one offered, at the event where `cmd_valid` and `cmd_ready` both hold (R45). -/
def fetch (s : State) : Option CmdWord := if cmdReady s then s.offered else none

/-- The accepted word leaves the port (R45). -/
def consume (s : State) : State := { s with offered := none }

/-- `rst` goes high: the command in progress is abandoned and no further response word of it is produced (R121). -/
def assertReset (s : State) : State := { s with rsp := [], inReset := true }

/-- `rst` goes low: the reset sequence, which is that of SCRUB, and then `cmd_ready` (R121, R122). -/
def releaseReset (s : State) : State :=
  if s.inReset then { zeroise s with rsp := [], inReset := false } else s

/-- One action of the host at the ports (R127). -/
def hostAct (act : HostAct) (s : State) : Host.Outcome State Fault Refusal :=
  match act with
  | .raiseCmd w =>
    match s.offered with
    | none => .next { s with offered := some w }
    | some v => if v = w then .next s else .refused .cmdDataChanged
  | .dropCmd => .next { s with offered := none }
  | .takeRsp => .next { s with rsp := s.rsp.tail }
  | .assertRst => .next (assertReset s)
  | .releaseRst => .next (releaseReset s)

/-- The host's next action, if it has one. Without one nothing happens: the engine waits (R24), or the host has stopped for
good and the engine is stuck with it (R131). -/
def hostTurn (s : State) : Host.Outcome State Fault Refusal :=
  match s.host with
  | [] => .next s
  | act :: rest => hostAct act { s with host := rest }

end Sys2Proof.Machine
end

