-- ==== Sys2Proof/Machine/Step.lean ====
section
/-! DEFINITION. One step: the engine accepts and executes the command offered, if it can; if not, the host acts once. -/

namespace Sys2Proof.Machine

/-- An accepted word: its command, or IllegalCommand (R50, R107, R111). -/
def execWord (w : CmdWord) (s : State) : Host.Outcome State Fault Refusal :=
  match decode w with
  | .ok i => exec i s
  | .error _ => .next (raise .illegalCommand s)

/-- One step (log entry 1). -/
def step (s : State) : Host.Outcome State Fault Refusal :=
  match fetch s with
  | some w => execWord w (consume s)
  | none => hostTurn s

/-- `s` with the command word `w` (its low `nbits` bits) offered at the command port of an engine that can accept it at
once: no response word pending, `rst` low (log entry 8). -/
def State.withFetchWord (s : State) (nbits w : Nat) : State :=
  { s with offered := some (BitVec.ofNat 32 (w % 2 ^ nbits)), rsp := [], inReset := false }

end Sys2Proof.Machine
end

