-- ==== Sys2Proof/Machine/Assembler.lean ====
section
/-! DEFINITION. The assembler of 30_encoding R55 and R56: a line of text to the command words it stands for, or a rejection.
Text is a list of characters. What those rules leave open about the text is log entry 15. -/

namespace Sys2Proof.Machine

/-! ## Fields and words -/

/-- Every operand fits a byte field. -/
def fitBytes (ns : List Nat) : Option (List Byte) :=
  if ns.all (fun n => decide (n < 256)) then some (ns.map (BitVec.ofNat 8)) else none

/-- The words of a pseudo-instruction, or a rejection where it has no expansion (KEY with no byte or too many). -/
def assemblePseudo (p : Pseudo) : Option (List CmdWord) :=
  if p.wellFormed then some (p.expand.map encode) else none

/-- The words a line stands for; none where the assembler rejects it: an operand outside its field (R55), or a wrong number of
operands (DESIGN CHOICE, log entry 15). The length of INITK is 0 to 256: no line produces the word of `INITK 257`
(95_test_vectors, program P4), nor that of any greater length (DEDUCED, log entry 11). -/
def assembleLine (l : AsmLine) : Option (List CmdWord) :=
  match l.mnemonic, l.operands with
  | .ldk, [idx, byte] =>
    if idx < 256 ∧ byte < 256 then some [encode (.ldk (BitVec.ofNat 8 idx) (BitVec.ofNat 8 byte))] else none
  | .initk, [len] => if len ≤ Config.keyMax then some [encode (.initk (BitVec.ofNat 16 len))] else none
  | .initd, [] => some [encode .initd]
  | .encb, [byte] => if byte < 256 then some [encode (.encb (BitVec.ofNat 8 byte))] else none
  | .decb, [byte] => if byte < 256 then some [encode (.decb (BitVec.ofNat 8 byte))] else none
  | .final, [len] => if len < 65536 then some [encode (.final (BitVec.ofNat 16 len))] else none
  | .scrub, [] => some [encode .scrub]
  | .stat, [] => some [encode .stat]
  | .key, ns => (fitBytes ns).bind fun bs => assemblePseudo (.key bs)
  | .encs, ns => (fitBytes ns).bind fun bs => assemblePseudo (.encs bs)
  | .decs, ns => (fitBytes ns).bind fun bs => assemblePseudo (.decs bs)
  | .absorb, ns => (fitBytes ns).bind fun bs => assemblePseudo (.absorb bs)
  | _, _ => none

/-! ## Reading a line of text -/

/-- The blanks are the space and the tab (DESIGN CHOICE, log entry 15). -/
def isBlank (c : Char) : Bool := c == ' ' || c == '\t'

/-- Without the blanks at both ends. -/
def trimBlanks (cs : List Char) : List Char := ((cs.dropWhile isBlank).reverse.dropWhile isBlank).reverse

/-- `;` starts a comment (R55). -/
def dropComment (cs : List Char) : List Char := cs.takeWhile (· != ';')

/-- The value of a digit in base 10 or 16; hexadecimal digits in either case (DESIGN CHOICE, log entry 15). -/
def digitValue (base : Nat) (c : Char) : Option Nat :=
  if 48 ≤ c.toNat ∧ c.toNat ≤ 57 then some (c.toNat - 48)
  else if base = 16 ∧ 65 ≤ c.toNat ∧ c.toNat ≤ 70 then some (c.toNat - 55)
  else if base = 16 ∧ 97 ≤ c.toNat ∧ c.toNat ≤ 102 then some (c.toNat - 87)
  else none

/-- The digits of a number, after those already read. -/
def readDigits (base : Nat) : Nat → List Char → Option Nat
  | acc, [] => some acc
  | acc, c :: cs => (digitValue base c).bind fun d => readDigits base (acc * base + d) cs

/-- A number, decimal or `0x` hexadecimal (R55). The prefix has a small x only, and at least one digit follows it (DESIGN CHOICE,
log entry 15). -/
def readNumber : List Char → Option Nat
  | [] => none
  | '0' :: 'x' :: d :: ds => readDigits 16 0 (d :: ds)
  | d :: ds => readDigits 10 0 (d :: ds)

/-- The pieces between commas. -/
def splitCommas : List Char → List (List Char)
  | [] => [[]]
  | c :: cs =>
    if c = ',' then [] :: splitCommas cs
    else
      match splitCommas cs with
      | [] => [[c]]
      | t :: ts => (c :: t) :: ts

/-- Numbers separated by commas, or nothing (R55). -/
def readNumbers (cs : List Char) : Option (List Nat) :=
  let body := trimBlanks (dropComment cs)
  if body.isEmpty then some [] else (splitCommas body).mapM fun t => readNumber (trimBlanks t)

/-- Text in double quotes as its ASCII codes, after the opening quote (R56). It runs to the next quote; a `;` in it is a byte of
the text and starts no comment; only blanks or a comment may follow it (DESIGN CHOICE, log entry 15). -/
def readText (cs : List Char) : Option (List Nat) :=
  let body := cs.takeWhile (· != '"')
  match cs.dropWhile (· != '"') with
  | [] => none
  | _ :: rest =>
    if (trimBlanks (dropComment rest)).isEmpty && body.all (fun c => decide (c.toNat < 128)) then
      some (body.map Char.toNat)
    else none

/-- The mnemonics, in capitals (R55, R56). -/
def readMnemonic : List Char → Option Mnemonic
  | ['L', 'D', 'K'] => some .ldk
  | ['I', 'N', 'I', 'T', 'K'] => some .initk
  | ['I', 'N', 'I', 'T', 'D'] => some .initd
  | ['E', 'N', 'C', 'B'] => some .encb
  | ['D', 'E', 'C', 'B'] => some .decb
  | ['F', 'I', 'N', 'A', 'L'] => some .final
  | ['S', 'C', 'R', 'U', 'B'] => some .scrub
  | ['S', 'T', 'A', 'T'] => some .stat
  | ['K', 'E', 'Y'] => some .key
  | ['E', 'N', 'C', 'S'] => some .encs
  | ['D', 'E', 'C', 'S'] => some .decs
  | ['A', 'B', 'S', 'O', 'R', 'B'] => some .absorb
  | _ => none

/-- The operands of a mnemonic: quoted text for KEY and ENCS where a quote opens it (R56), numbers otherwise. -/
def readOperands (m : Mnemonic) (cs : List Char) : Option (List Nat) :=
  match m, cs.dropWhile isBlank with
  | .key, '"' :: rest => readText rest
  | .encs, '"' :: rest => readText rest
  | _, cs => readNumbers cs

/-- The end of a mnemonic: a blank or the start of a comment (DESIGN CHOICE, log entry 15). -/
def endsMnemonic (c : Char) : Bool := isBlank c || c == ';'

/-- One command a line (R55): the words of a line of text, or a rejection. A line that holds only blanks or a comment has no
words and is no rejection (DESIGN CHOICE, log entry 15). -/
def assemble (cs : List Char) : Option (List CmdWord) :=
  let cs := cs.dropWhile isBlank
  if (dropComment cs).isEmpty then some []
  else
    (readMnemonic (cs.takeWhile (fun c => !endsMnemonic c))).bind fun m =>
      (readOperands m (cs.dropWhile (fun c => !endsMnemonic c))).bind fun ns =>
        assembleLine ⟨m, ns⟩

end Sys2Proof.Machine
end

