-- ==== Sys2Proof/Machine/Trace.lean ====
section
/-! DEFINITION. The work of each command and of reset (70_reset R134): the accesses to PV and KEYBUF in order (20_memory R44,
40_key_schedule R75) and the transform steps, a history beside the meanings, which no meaning reads. Log entry 12. -/

namespace Sys2Proof.Machine

/-- The two address spaces (R27). -/
inductive Space where
  | pv
  | keybuf
  deriving DecidableEq, Repr

/-- One access: its space, its index, and the byte read or written (R31, R32). -/
inductive Access where
  | read (space : Space) (index byte : Byte)
  | write (space : Space) (index byte : Byte)
  deriving DecidableEq, Repr

/-- A read of PV as it stands. -/
def readsPv (s : State) (i : Byte) : Access := .read .pv i (pvAt s i)

/-- The trace of one transform step, M1 to M19 of R44 (M2 is no access). -/
def transformTrace (s : State) : List Access :=
  let s2 := indexUpdate s
  let t := pvAt s2 s2.right
  let s4 := setPv s2 s2.right (pvAt s2 s2.pride)
  let s5 := setPv s4 s4.pride (pvAt s4 s4.left)
  let s6 := setPv s5 s5.left (pvAt s5 s5.radix)
  let s7 := fourMoves s2
  let s8 := formMix s7
  [ readsPv s s.radix,
    readsPv s2 s2.right,
    readsPv s2 s2.pride, .write .pv s2.right (pvAt s2 s2.pride),
    readsPv s4 s4.left, .write .pv s4.pride (pvAt s4 s4.left),
    readsPv s5 s5.radix, .write .pv s5.left (pvAt s5 s5.radix),
    .write .pv s6.radix t,
    readsPv s7 t,
    readsPv s8 s8.pride, readsPv s8 s8.radix, readsPv s8 s8.transients.a,
    readsPv s8 s8.left, readsPv s8 s8.right, readsPv s8 s8.chasm, readsPv s8 s8.transients.b,
    readsPv s8 (pvAt s8 s8.transients.b) ]

/-- 256 writes of one memory; their order cannot be observed and is 0 to 255 here (R67, R77, R100). -/
def fillTrace (space : Space) (f : Byte → Byte) : List Access :=
  (List.range 256).map fun k => .write space (BitVec.ofNat 8 k) (f (BitVec.ofNat 8 k))

/-- The writes of `zeroise`, the sequence SCRUB and reset share (R100, R122). -/
def zeroiseTrace : List Access := fillTrace .pv (fun _ => 0) ++ fillTrace .keybuf (fun _ => 0)

/-- The two reads of a draw (R69, R75). -/
def drawTrace (s : State) : List Access :=
  [ readsPv s s.transients.rsum, .read .keybuf (s.transients.keypos.setWidth 8) (keyAtPos s) ]

/-- The draws of the attempts, as `attempts` makes them. -/
def attemptsTrace (len : BitVec 16) (limit : Byte) : Nat → State → List Access
  | 0, s => drawTrace s
  | k + 1, s =>
    let s' := draw len s
    if s'.transients.u ≤ limit then drawTrace s
    else drawTrace s ++ attemptsTrace len limit k { s' with transients.rej := s'.transients.rej + 1 }

/-- The draws of one keyrand call. -/
def keyrandTrace (len : BitVec 16) (limit : Byte) (s : State) : List Access :=
  attemptsTrace len limit Config.maxRejections { s with transients.mask := maskFor limit, transients.rej := 0 }

/-- The two reads and two writes of an exchange (R75). -/
def exchangeTrace (s : State) : List Access :=
  [ readsPv s s.transients.i, readsPv s s.transients.toswap,
    .write .pv s.transients.i (pvAt s s.transients.toswap),
    .write .pv s.transients.toswap (pvAt s s.transients.i) ]

/-- One position of the shuffle (R75). -/
def shufflePositionTrace (len : BitVec 16) (i : Byte) (s : State) : List Access :=
  let s := { s with transients.i := i }
  keyrandTrace len i s ++ exchangeTrace (keyrand len i s)

/-- Positions k-1 down to 0 (R75). -/
def shuffleTrace (len : BitVec 16) : Nat → State → List Access
  | 0, _ => []
  | k + 1, s =>
    shufflePositionTrace len (BitVec.ofNat 8 k) s ++ shuffleTrace len k (shufflePosition len (BitVec.ofNat 8 k) s)

/-- The five reads of the register load (R75). -/
def loadTrace (s : State) : List Access :=
  [ readsPv s 1, readsPv s 3, readsPv s 5, readsPv s 7, readsPv s s.transients.rsum ]

/-- The trace of a key schedule (R75). -/
def keyScheduleTrace (len : BitVec 16) (s : State) : List Access :=
  let s := beginSchedule s
  fillTrace .pv (fun k => k) ++ shuffleTrace len Config.pvSize s ++ loadTrace (shuffle len Config.pvSize s)

/-- The states in which the transform steps of the whitening pass begin, as `whiten` takes them. -/
def whitenStarts : Nat → State → List State
  | 0, _ => []
  | k + 1, s =>
    let s := { s with transients.w := BitVec.ofNat 9 k }
    s :: whitenStarts k (encbBody (s.transients.w.setWidth 8) s)

/-- The states in which the transform steps of the squeeze begin, as `squeeze` takes them. -/
def squeezeStarts : Nat → State → List State
  | 0, _ => []
  | k + 1, s =>
    let s := { s with transients.n := s.transients.n + 1 }
    s :: squeezeStarts k (encbBody Config.squeezeByte s)

/-- The states in which the transform steps of a command in a session begin, in order (R80, R81, R95). -/
def sessionStarts (i : Instr) (s : State) : List State :=
  match i with
  | .ldk _ _ => []
  | .initk _ => []
  | .initd => []
  | .encb _ => [s]
  | .decb _ => [s]
  | .final len =>
    whitenStarts Config.whitenSteps s ++ squeezeStarts len.toNat { whiten Config.whitenSteps s with transients.n := 0 }
  | .scrub => []
  | .stat => []

/-- The states in which the transform steps of a command begin: none where no session exists (R108). -/
def transformStarts (i : Instr) (s : State) : List State := if s.mode = .idle then [] else sessionStarts i s

/-- How many transform steps a command runs: the last column of R134. -/
def transformSteps (i : Instr) (s : State) : Nat := (transformStarts i s).length

/-- The accesses of the transform steps of a command, one step after the other. -/
def stepsTrace (i : Instr) (s : State) : List Access := (transformStarts i s).flatMap transformTrace

/-- The accesses of a command. An errored command makes none (R134). -/
def accessTrace (i : Instr) (s : State) : List Access :=
  match i with
  | .ldk idx byte => [.write .keybuf idx byte]
  | .initk len => if len.toNat > Config.keyMax ∨ len = 0 then [] else keyScheduleTrace len s
  | .initd => fillTrace .pv Config.digestPv
  | .encb byte => stepsTrace (.encb byte) s
  | .decb byte => stepsTrace (.decb byte) s
  | .final len => stepsTrace (.final len) s
  | .scrub => zeroiseTrace
  | .stat => []

/-- The accesses of an accepted word: those of its command, none for an illegal word (R107, R134). -/
def wordTrace (w : CmdWord) (s : State) : List Access :=
  match decode w with
  | .ok i => accessTrace i s
  | .error _ => []

/-- The accesses the engine makes while the host acts: the reset sequence when `rst` goes low, and no others (R122, R134). -/
def hostActTrace (act : HostAct) (s : State) : List Access :=
  match act with
  | .raiseCmd _ => []
  | .dropCmd => []
  | .takeRsp => []
  | .assertRst => []
  | .releaseRst => if s.inReset then zeroiseTrace else []

/-- The accesses of one step of the machine. -/
def stepTrace (s : State) : List Access :=
  match fetch s with
  | some w => wordTrace w (consume s)
  | none =>
    match s.host with
    | [] => []
    | act :: rest => hostActTrace act { s with host := rest }

/-! ## Reading a trace -/

/-- The accesses carried out on the two memories: a read must find the byte it recorded, a write takes effect at once (R31). -/
def replay : List Access → Memory × Memory → Option (Memory × Memory)
  | [], m => some m
  | .read .pv i v :: l, m => if Memory.read m.1 i = v then replay l m else none
  | .read .keybuf i v :: l, m => if Memory.read m.2 i = v then replay l m else none
  | .write .pv i v :: l, m => replay l (Memory.write m.1 i v, m.2)
  | .write .keybuf i v :: l, m => replay l (m.1, Memory.write m.2 i v)

/-- A read of this space. -/
def Access.readsSpace (space : Space) : Access → Bool
  | .read sp _ _ => decide (sp = space)
  | .write _ _ _ => false

/-- A write of this space. -/
def Access.writesSpace (space : Space) : Access → Bool
  | .read _ _ _ => false
  | .write sp _ _ => decide (sp = space)

/-- How many reads of a space a trace holds (R134). -/
def countReads (space : Space) (l : List Access) : Nat := l.countP (Access.readsSpace space)

/-- How many writes of a space a trace holds (R134). -/
def countWrites (space : Space) (l : List Access) : Nat := l.countP (Access.writesSpace space)

end Sys2Proof.Machine
end

