-- ==== Sys2Proof/Safety.lean ====
section
/-! DEFINITION. What counts as a safe state and a safe run: the permutation invariant (10_state R14), the canonical memories,
quiet transients (R23), response words of the forms the engine produces (30_encoding R52, R53; 93_implementation_defined U8),
and none of them while `rst` is high (70_reset R121). -/

namespace Sys2Proof.Machine

/-- A memory read as a function of the index is a bijection of the 256 bytes (R14). -/
def isPermutation (m : Memory) : Prop := Function.Bijective (Memory.read m)

/-- R14 and R28: in a session PV is a bijection; in IDLE the whole handle is zero. -/
def HandleInv (s : State) : Prop :=
  match s.mode with
  | .idle => (∀ i, Memory.read s.pv i = 0) ∧ s.radix = 0 ∧ s.pride = 0 ∧ s.chasm = 0 ∧ s.left = 0 ∧ s.right = 0
  | .keyed => isPermutation s.pv
  | .digest => isPermutation s.pv

/-- Both memories are in canonical form (log entry 3). -/
def MemoryInv (s : State) : Prop := Memory.wf s.pv = true ∧ Memory.wf s.keybuf = true

/-- Between commands every transient is zero (R23). -/
def QuietInv (s : State) : Prop := s.transients = Transients.zero

/-- A word the engine can produce while MODE is `m` (R52, U8): its MODE field is `m`, ERR is at most 3, ERR is 0 where DV is
1, and DATA is 0 where DV is 0. -/
def wordFits (m : Mode) (w : RspWord) : Prop :=
  rspMode w = m.code ∧ (rspErr w).toNat ≤ 3 ∧ (rspDv w = true → rspErr w = 0) ∧ (rspDv w = false → rspDataField w = 0)

/-- Words still to be taken: each fits, and LAST is 1 in the last of them and in no other (R53). -/
def responseTail (m : Mode) : List RspWord → Prop
  | [] => True
  | [w] => wordFits m w ∧ rspLast w = true
  | w :: w' :: ws => wordFits m w ∧ rspLast w = false ∧ responseTail m (w' :: ws)

/-- The words on the response port are the rest of one response (R53). -/
def ResponseInv (s : State) : Prop := responseTail s.mode s.rsp

/-- While `rst` is high no response word is pending (R121). -/
def ResetInv (s : State) : Prop := s.inReset = true → s.rsp = []

/-- A safe state: all five. -/
def SafeState (s : State) : Prop := HandleInv s ∧ MemoryInv s ∧ QuietInv s ∧ ResponseInv s ∧ ResetInv s

/-- The architectural state of two engines is the same: the tuple at the head of 10_state. -/
def SameArch (s t : State) : Prop :=
  s.pv = t.pv ∧ s.radix = t.radix ∧ s.pride = t.pride ∧ s.chasm = t.chasm ∧ s.left = t.left ∧ s.right = t.right ∧
    s.mode = t.mode ∧ s.keybuf = t.keybuf

/-- The host's side of the ports is the same. -/
def SamePorts (s t : State) : Prop := s.offered = t.offered ∧ s.inReset = t.inReset ∧ s.host = t.host

/-- Commands executed one after another, each to completion, their responses taken whole (R53, R91): the state after them
and the response words in order. -/
def execAll : List Instr → State → Host.Outcome (State × List RspWord) Fault Refusal
  | [], s => .next (s, [])
  | i :: is, s =>
    match exec i s with
    | .next t =>
      match execAll is { t with rsp := [] } with
      | .next r => .next (r.1, t.rsp ++ r.2)
      | .fault f => .fault f
      | .refused f => .refused f
    | .fault f => .fault f
    | .refused f => .refused f

end Sys2Proof.Machine
end

