-- ==== Sys2Proof/Certificates/Slice0/Obligations.lean ====
section
/-! DEFINITION. The statements for the provers. The first part writes the rules' pseudocode over plain functions from index to
byte, independent of the model's memories and operations; the statements compare the machine with it. -/

namespace Sys2Proof.Spec

open Sys2Proof.Machine

/-! ## Response words as numbers (30_encoding R52, R53; 44_system R104) -/

/-- The one word of a command without output: ERR, MODE, LAST = 1, DV = 0, DATA = 0. -/
def statusWord (err : Nat) (m : Mode) : RspWord := BitVec.ofNat 16 (0x1000 * err + 0x400 * m.code.toNat + 0x200)

/-- A word that carries an output byte: ERR = 0, MODE, LAST, DV = 1. -/
def dataWord (m : Mode) (last : Bool) (d : Byte) : RspWord :=
  BitVec.ofNat 16 (0x400 * m.code.toNat + (if last then 0x200 else 0) + 0x100 + d.toNat)

/-- The response of a command without error: one status word, or word j with LAST = 1 when j = k - 1 (R53). -/
def okWords (m : Mode) (out : List Byte) : List RspWord :=
  if out = [] then [statusWord 0 m] else out.mapIdx fun j b => dataWord m (decide (j + 1 = out.length)) b

/-! ## The handle and the transform over plain functions (42_byte_transform R80 to R82) -/

/-- The handle (10_state R22), PV as a function of the index. -/
structure Handle where
  pv : Byte → Byte
  radix : Byte
  pride : Byte
  chasm : Byte
  left : Byte
  right : Byte

/-- The handle a state holds. -/
def handleOf (s : State) : Handle := ⟨Memory.read s.pv, s.radix, s.pride, s.chasm, s.left, s.right⟩

/-- Two engines hold the same handle (R22). -/
def sameHandle (s t : State) : Prop :=
  s.pv = t.pv ∧ s.radix = t.radix ∧ s.pride = t.pride ∧ s.chasm = t.chasm ∧ s.left = t.left ∧ s.right = t.right

/-- `PV[i] <- v`. -/
def put (f : Byte → Byte) (i v : Byte) : Byte → Byte := fun x => if x = i then v else f x

/-- step(): the new handle and mix (R82). -/
def step (h : Handle) : Handle × Byte :=
  let pride := h.pride + h.pv h.radix
  let radix := h.radix + 1
  let t := h.pv h.right
  let pv4 := put h.pv h.right (h.pv pride)
  let pv5 := put pv4 pride (pv4 h.left)
  let pv6 := put pv5 h.left (pv5 radix)
  let pv7 := put pv6 radix t
  let chasm := h.chasm + pv7 t
  let a := pv7 pride + pv7 radix
  let b := pv7 h.left + pv7 h.right + pv7 chasm
  (⟨pv7, radix, pride, chasm, h.left, h.right⟩, pv7 a ^^^ pv7 (pv7 b))

/-- ENCB: the new handle and the output byte (R80). -/
def enc (p : Byte) (h : Handle) : Handle × Byte :=
  let r := step h
  ({ r.1 with right := p ^^^ r.2, left := p }, p ^^^ r.2)

/-- DECB: the new handle and the output byte (R81). -/
def dec (c : Byte) (h : Handle) : Handle × Byte :=
  let r := step h
  ({ r.1 with left := c ^^^ r.2, right := c }, c ^^^ r.2)

/-- A sequence of bytes through ENCB, first byte first (R91). -/
def encs : List Byte → Handle → Handle × List Byte
  | [], h => (h, [])
  | p :: ps, h =>
    let r := enc p h
    let q := encs ps r.1
    (q.1, r.2 :: q.2)

/-- The whitening sequence 255, 254, ..., 0 (R7). -/
def whitenSeq : List Byte := (List.range 256).reverse.map (BitVec.ofNat 8)

/-- FINAL n: the new handle and the digest (R95). -/
def final (n : Nat) (h : Handle) : Handle × List Byte := encs (List.replicate n 0) (encs whitenSeq h).1

/-! ## The key schedule over plain functions (40_key_schedule R66 to R73) -/

/-- What the shuffle carries from position to position: PV, rsum and keypos (R67). -/
structure Schedule where
  pv : Byte → Byte
  rsum : Byte
  keypos : Nat

/-- draw() up to the candidate (R69). -/
def draw (key : Byte → Byte) (len : Nat) (c : Schedule) : Schedule :=
  let rsum := c.pv c.rsum + key (BitVec.ofNat 8 c.keypos)
  if c.keypos + 1 = len then ⟨c.pv, rsum + BitVec.ofNat 8 len, 0⟩ else ⟨c.pv, rsum, c.keypos + 1⟩

/-- The candidate u: rsum under the mask 2^n - 1, n the number of binary digits of the limit (R68, R69). -/
def candidate (limit : Nat) (c : Schedule) : Nat := c.rsum.toNat % 2 ^ limit.size

/-- keyrand with so many rejections still allowed (R70, R71): the swap index, and the schedule after the draws. -/
def keyrand (key : Byte → Byte) (len limit : Nat) : Nat → Schedule → Nat × Schedule
  | 0, c =>
    let c := draw key len c
    (candidate limit c % limit, c)
  | k + 1, c =>
    let c := draw key len c
    if candidate limit c ≤ limit then (candidate limit c, c) else keyrand key len limit k c

/-- A true exchange of two entries (R67). -/
def swap (f : Byte → Byte) (i j : Byte) : Byte → Byte := fun x => if x = i then f j else if x = j then f i else f x

/-- Positions i-1 down to 0 of the shuffle, 11 rejections allowed at each (R67, R70). -/
def shuffle (key : Byte → Byte) (len : Nat) : Nat → Schedule → Schedule
  | 0, c => c
  | i + 1, c =>
    let r := keyrand key len i 11 c
    shuffle key len i { r.2 with pv := swap r.2.pv (BitVec.ofNat 8 i) (BitVec.ofNat 8 r.1) }

/-- The schedule after all 256 positions, from the identity with rsum and keypos 0 (R66, R67). -/
def schedule (key : Byte → Byte) (len : Nat) : Schedule := shuffle key len 256 ⟨fun k => k, 0, 0⟩

/-! ## Errors, sequences and effects -/

/-- The error of a command, decided before anything else (60_exceptions R105 to R108, R111). -/
def errorOf : Instr → Mode → ErrCode
  | .initk len, _ => if 256 < len.toNat then .illegalCommand else if len = 0 then .invalidKey else .ok
  | .encb _, .idle => .noSession
  | .decb _, .idle => .noSession
  | .final _, .idle => .noSession
  | _, _ => .ok

/-- The illegal words, by their fields (30_encoding R51). -/
def illegal (w : CmdWord) : Prop :=
  (opField w).toNat = 0 ∨ 9 ≤ (opField w).toNat ∨ zeroField w ≠ 0 ∨
  ((opField w).toNat ∈ [3, 7, 8] ∧ lenField w ≠ 0) ∨
  ((opField w).toNat ∈ [4, 5] ∧ idxField w ≠ 0) ∨
  ((opField w).toNat = 2 ∧ 256 < (lenField w).toNat)

/-- How many output bytes a command gives while MODE is `m` (R53). -/
def outputs : Instr → Mode → Nat
  | _, .idle => 0
  | .encb _, _ => 1
  | .decb _, _ => 1
  | .final len, _ => len.toNat
  | _, _ => 0

/-- ENCB where the first component is true, DECB where it is false (R93). -/
def byteCommand (op : Bool × Byte) : Instr := if op.1 then .encb op.2 else .decb op.2

/-- What the peer does with each response word: the opposite operation on the output byte (R87, R93). -/
def peerCommands (ops : List (Bool × Byte)) (words : List RspWord) : List Instr :=
  List.zipWith (fun op w => byteCommand (!op.1, rspDataField w)) ops words

/-- "X gets Y" for each pair (X, Y), and every other entry unchanged (42_byte_transform R84, R85). -/
def effect (before after : Memory) (pairs : List (Byte × Byte)) : Prop :=
  (∀ p ∈ pairs, Memory.read after p.1 = Memory.read before p.2) ∧
    ∀ i, i ∉ pairs.map Prod.fst → Memory.read after i = Memory.read before i

/-- The ENCB commands FINAL n stands for: the whitening sequence, then n zeros (43_digest_finalize R96). -/
def finalCommands (n : Nat) : List Instr := whitenSeq.map .encb ++ List.replicate n (.encb 0)

/-- The output bytes among response words: the DATA of those with DV = 1. -/
def outputBytes (words : List RspWord) : List Byte := (words.filter rspDv).map rspDataField

end Sys2Proof.Spec

open Sys2Proof Sys2Proof.Machine

/-! ## Encoding and decoding -/

/-- Decoding the word of a well-formed command gives the command, with every operand at every value (R46 to R50). -/
def Obligations.DecodeInvertsEncode : Prop :=
  ∀ i : Instr, i.wellFormed = true → decode (encode i) = .ok i

/-- A legal word is the word of the one command it decodes to, and that command is well formed. -/
def Obligations.EncodeInvertsDecode : Prop :=
  ∀ (w : CmdWord) (i : Instr), decode w = .ok i → encode i = w ∧ i.wellFormed = true

/-- R50: every word selects exactly one row of R49 and satisfies its operand constraint, or is illegal. -/
def Obligations.EveryWordSelectsOneRowOrIsIllegal : Prop :=
  ∀ w : CmdWord,
    (∃ i, decode w = .ok i ∧
      ∃ r ∈ opcodeRows, r.mnemonic = i.mnemonic ∧ r.selects w = true ∧
        (r.mnemonic = .initk → (lenField w).toNat ≤ 256) ∧
        ∀ r' ∈ opcodeRows, r'.selects w = true → r' = r) ∨
    ((∃ e, decode w = .error e) ∧
      ∀ r ∈ opcodeRows, r.selects w = true → r.mnemonic = .initk ∧ 256 < (lenField w).toNat)

/-- R51: which words are illegal, that there are 131844 legal ones, what an illegal word does when it is executed, and that no
command but STAT is a no-operation: every other one that is not an error by its operand changes some state. -/
def Obligations.IllegalWordsAreTheseAndChangeNothing : Prop :=
  (∀ w : CmdWord, (∃ e, decode w = .error e) ↔ Spec.illegal w) ∧
  (∃ e, decode 0x00000000 = .error e) ∧ (∃ e, decode 0xFFFFFFFF = .error e) ∧
  (∃ legal : List CmdWord, legal.Nodup ∧ legal.length = 131844 ∧ ∀ w, w ∈ legal ↔ ∃ i, decode w = .ok i) ∧
  (∀ (i : Instr), i.wellFormed = true → i ≠ .stat → i ≠ .initk 0 → ∃ s t, exec i s = .next t ∧ ¬ SameArch s t) ∧
  ∀ (w : CmdWord) (s : State), Spec.illegal w →
    execWord w s = .next { s with transients := .zero, rsp := [Spec.statusWord 2 s.mode] }

/-- A few words written out from the formats of R46 decode to the commands they stand for. -/
def Obligations.WrittenWordsDecode : Prop :=
  decode 0b00000001000000000000011101100100 = .ok (.ldk 7 0x64) ∧
  decode 0b00000010000000000000000100000000 = .ok (.initk 256) ∧
  decode 0b00000011000000000000000000000000 = .ok .initd ∧
  decode 0b00000100000000000000000001001000 = .ok (.encb 0x48) ∧
  decode 0b00000101000000000000000011011010 = .ok (.decb 0xDA) ∧
  decode 0b00000110000000001111111111111111 = .ok (.final 65535) ∧
  decode 0b00000111000000000000000000000000 = .ok .scrub ∧
  decode 0b00001000000000000000000000000000 = .ok .stat

/-- The table of the assembler: a line of a command is assembled exactly when it has the command's operands and each fits its
field, and then its word is the sum of the table (30_encoding section 7). The model's choices in it: a length of INITK above 256
is rejected, as 95_test_vectors P4 shows for 257 (log entry 11), and so is a wrong number of operands (log entry 15). -/
def Obligations.AssemblerGivesTheSumOrRejects : Prop :=
  ∀ (ns : List Nat) (words : List CmdWord),
    (assembleLine ⟨.ldk, ns⟩ = some words ↔ ∃ idx byte, ns = [idx, byte] ∧ idx < 256 ∧ byte < 256 ∧
      words.map BitVec.toNat = [0x01000000 + idx * 256 + byte]) ∧
    (assembleLine ⟨.initk, ns⟩ = some words ↔ ∃ len, ns = [len] ∧ len ≤ 256 ∧
      words.map BitVec.toNat = [0x02000000 + len]) ∧
    (assembleLine ⟨.initd, ns⟩ = some words ↔ ns = [] ∧ words.map BitVec.toNat = [0x03000000]) ∧
    (assembleLine ⟨.encb, ns⟩ = some words ↔ ∃ byte, ns = [byte] ∧ byte < 256 ∧
      words.map BitVec.toNat = [0x04000000 + byte]) ∧
    (assembleLine ⟨.decb, ns⟩ = some words ↔ ∃ byte, ns = [byte] ∧ byte < 256 ∧
      words.map BitVec.toNat = [0x05000000 + byte]) ∧
    (assembleLine ⟨.final, ns⟩ = some words ↔ ∃ len, ns = [len] ∧ len < 65536 ∧
      words.map BitVec.toNat = [0x06000000 + len]) ∧
    (assembleLine ⟨.scrub, ns⟩ = some words ↔ ns = [] ∧ words.map BitVec.toNat = [0x07000000]) ∧
    (assembleLine ⟨.stat, ns⟩ = some words ↔ ns = [] ∧ words.map BitVec.toNat = [0x08000000])

/-- The assembler produces legal words only, from every line, pseudo-instructions among them, and from every text: illegal words
are raw words (95_test_vectors, program P4). For INITK above 257 that is log entry 11, and how text is read log entry 15. -/
def Obligations.AssemblerMakesLegalWordsOnly : Prop :=
  (∀ (l : AsmLine) (words : List CmdWord), assembleLine l = some words → ∀ w ∈ words, ¬ Spec.illegal w) ∧
  ∀ (text : List Char) (words : List CmdWord), assemble text = some words → ∀ w ∈ words, ¬ Spec.illegal w

/-! ## The key buffer -/

/-- After SCRUB, an entry of KEYBUF reads as the byte last loaded at its index, and as 0 where none was (20_memory section 1). -/
def Obligations.KeybufHoldsTheLastByteLoaded : Prop :=
  ∀ (loads : List (Byte × Byte)) (s : State), ∃ t words,
    execAll (.scrub :: loads.map fun p => .ldk p.1 p.2) s = .next (t, words) ∧
    ∀ k, Memory.read t.keybuf k = ((loads.reverse.find? fun p => p.1 == k).map Prod.snd).getD 0

/-! ## LDK, INITK, INITD -/

/-- LDK idx, byte: one entry of KEYBUF and nothing else, in every MODE. -/
def Obligations.LdkStoresOneKeyByte : Prop :=
  ∀ (idx byte : Byte) (s : State), (encode (.ldk idx byte)).toNat = 0x01000000 + idx.toNat * 256 + byte.toNat ∧ ∃ t, exec (.ldk idx byte) s = .next t ∧
    Memory.read t.keybuf idx = byte ∧ (∀ j, j ≠ idx → Memory.read t.keybuf j = Memory.read s.keybuf j) ∧
    (∀ j, Memory.read t.pv j = Memory.read s.pv j) ∧
    t = { s with keybuf := t.keybuf, transients := .zero, rsp := [Spec.statusWord 0 s.mode] }

/-- R65: INITK with length 0 raises InvalidKey and changes no state. -/
def Obligations.InitkZeroRaisesInvalidKey : Prop :=
  ∀ s : State, ∃ t, exec (.initk 0) s = .next t ∧ SameArch s t ∧ SamePorts s t ∧
    t.rsp = [Spec.statusWord 1 s.mode] ∧ t.transients = .zero

/-- R66, R67, R73: INITK with 1 to 256 key bytes computes the key schedule of the rules, loads the registers from it, and
leaves KEYBUF and the ports alone; with no key byte it raises InvalidKey. -/
def Obligations.InitkComputesTheKeySchedule : Prop :=
  (∀ s : State, exec (.initk 0) s = .next { s with transients := .zero, rsp := [Spec.statusWord 1 s.mode] }) ∧
  ∀ (len : BitVec 16) (s : State), 1 ≤ len.toNat → len.toNat ≤ 256 →
    ∃ t, exec (.initk len) s = .next t ∧
      (let c := Spec.schedule (Memory.read s.keybuf) len.toNat
       (∀ i, Memory.read t.pv i = c.pv i) ∧ t.radix = c.pv 1 ∧ t.pride = c.pv 3 ∧ t.chasm = c.pv 5 ∧ t.left = c.pv 7 ∧
         t.right = c.pv c.rsum) ∧
      (∀ i, Memory.read t.keybuf i = Memory.read s.keybuf i) ∧
      t = { s with pv := t.pv, radix := t.radix, pride := t.pride, chasm := t.chasm, left := t.left, right := t.right,
                   mode := .keyed, transients := .zero, rsp := [Spec.statusWord 0 .keyed] }

/-- R74: after INITK PV is a bijection; the state after it is a function of the length and the key bytes below the length; and
it makes at most 2973 draws (each draw reads KEYBUF once in the trace functions of log entry 12). -/
def Obligations.InitkPermutesAndDependsOnKeyOnly : Prop :=
  ∀ (len : BitVec 16) (s s' : State), 1 ≤ len.toNat → len.toNat ≤ 256 →
    (∀ k : Byte, k.toNat < len.toNat → Memory.read s.keybuf k = Memory.read s'.keybuf k) →
    ∃ t t', exec (.initk len) s = .next t ∧ exec (.initk len) s' = .next t' ∧ isPermutation t.pv ∧
      t.pv = t'.pv ∧ t.radix = t'.radix ∧ t.pride = t'.pride ∧ t.chasm = t'.chasm ∧ t.left = t'.left ∧
      t.right = t'.right ∧ t.mode = t'.mode ∧ t.rsp = t'.rsp ∧
      countReads .keybuf (accessTrace (.initk len) s) ≤ 2973

/-- R68: the mask is the smallest 2^n - 1 at or above the limit; it has a 1 in every bit position at or below the highest 1
of the limit; it is at most twice a limit of at least 1; and more than half of the 256 values of rsum fit under it. -/
def Obligations.MaskIsSmallestAboveLimit : Prop :=
  ∀ limit : Byte,
    (∃ n, n ≤ 8 ∧ (maskFor limit).toNat = 2 ^ n - 1) ∧ limit.toNat ≤ (maskFor limit).toNat ∧
    (∀ n, limit.toNat ≤ 2 ^ n - 1 → (maskFor limit).toNat ≤ 2 ^ n - 1) ∧
    (∀ k, (maskFor limit).getLsbD k = true ↔ ∃ j, k ≤ j ∧ limit.getLsbD j = true) ∧
    (1 ≤ limit.toNat → (maskFor limit).toNat ≤ 2 * limit.toNat) ∧
    128 < (List.range 256).countP fun r => decide (maskFor limit &&& BitVec.ofNat 8 r ≤ limit)

/-- keyrand stays at or below its limit and makes 1 to 12 draws, exactly one where the limit is its own mask; and the shuffle
never touches an entry above the position it has reached (40_key_schedule, keyrand; draws are counted in the trace functions of
log entry 12). -/
def Obligations.KeyrandStaysBelowItsLimit : Prop :=
  (∀ (len : BitVec 16) (limit : Byte) (s : State),
    (keyrand len limit s).transients.toswap ≤ limit ∧
    1 ≤ countReads .keybuf (keyrandTrace len limit s) ∧ countReads .keybuf (keyrandTrace len limit s) ≤ 12 ∧
    (maskFor limit = limit → countReads .keybuf (keyrandTrace len limit s) = 1)) ∧
  ∀ (len : BitVec 16) (k : Nat) (s : State) (i : Byte), k ≤ i.toNat →
    Memory.read (Machine.shuffle len k s).pv i = Memory.read s.pv i

/-- INITD: the reverse identity and the fixed registers, in every MODE, KEYBUF untouched (R77). -/
def Obligations.InitdSetsTheDigestHandle : Prop :=
  (encode .initd).toNat = 0x03000000 ∧
  ∀ s : State, ∃ t, exec .initd s = .next t ∧ (∀ k, Memory.read t.pv k = 255 - k) ∧ isPermutation t.pv ∧
    (∀ k, Memory.read t.keybuf k = Memory.read s.keybuf k) ∧
    t = { s with pv := t.pv, radix := 1, pride := 3, chasm := 5, left := 7, right := 11, mode := .digest,
                 transients := .zero, rsp := [Spec.statusWord 0 .digest] }

/-! ## The transform -/

/-- ENCB in a session: the step of R82 in the order it is written, then right and left; the output byte is the new right; MODE,
KEYBUF and the ports are unchanged. In IDLE: NoSession, nothing changed (R80, R82). -/
def Obligations.EncbRunsTheTransform : Prop :=
  ∀ (byte : Byte) (s : State), (encode (.encb byte)).toNat = 0x04000000 + byte.toNat ∧
    (s.mode ≠ .idle → ∃ t, exec (.encb byte) s = .next t ∧
      Spec.handleOf t = (Spec.enc byte (Spec.handleOf s)).1 ∧
      (∀ i, Memory.read t.keybuf i = Memory.read s.keybuf i) ∧
      t = { s with pv := t.pv, radix := t.radix, pride := t.pride, chasm := t.chasm, left := t.left, right := t.right,
                   transients := .zero,
                   rsp := [Spec.dataWord s.mode true (Spec.enc byte (Spec.handleOf s)).2] }) ∧
    (s.mode = .idle →
      exec (.encb byte) s = .next { s with transients := .zero, rsp := [Spec.statusWord 3 .idle] })

/-- DECB in a session: the same step, then left and right; the output byte is the new left. In IDLE: NoSession (R81, R82). -/
def Obligations.DecbRunsTheTransform : Prop :=
  ∀ (byte : Byte) (s : State), (encode (.decb byte)).toNat = 0x05000000 + byte.toNat ∧
    (s.mode ≠ .idle → ∃ t, exec (.decb byte) s = .next t ∧
      Spec.handleOf t = (Spec.dec byte (Spec.handleOf s)).1 ∧
      (∀ i, Memory.read t.keybuf i = Memory.read s.keybuf i) ∧
      t = { s with pv := t.pv, radix := t.radix, pride := t.pride, chasm := t.chasm, left := t.left, right := t.right,
                   transients := .zero,
                   rsp := [Spec.dataWord s.mode true (Spec.dec byte (Spec.handleOf s)).2] }) ∧
    (s.mode = .idle →
      exec (.decb byte) s = .next { s with transients := .zero, rsp := [Spec.statusWord 3 .idle] })

/-- R84 and R85: what the moves S3 to S7 do in each of the fifteen ways the indices right, pride, left and radix, as the moves
see them, can coincide (all distinct: the rotation of R84); and in every case a bijection stays one. -/
def Obligations.MovesPermuteInEveryCoincidence : Prop :=
  ∀ s : State,
    (let r := s.right
     let p := s.pride
     let l := s.left
     let x := s.radix
     let gets := Spec.effect s.pv (fourMoves s).pv
     ([r, p, l, x].Nodup → gets [(r, p), (p, l), (l, x), (x, r)]) ∧
     (r = p → [r, l, x].Nodup → gets [(r, l), (l, x), (x, r)]) ∧
     (p = l → [r, p, x].Nodup → gets [(r, p), (p, x), (x, r)]) ∧
     (l = x → [r, p, l].Nodup → gets [(r, p), (p, l), (l, r)]) ∧
     (r = x → [r, p, l].Nodup → gets [(p, l), (l, p)]) ∧
     (r = l → [r, p, x].Nodup → gets [(r, x), (x, r)]) ∧
     (p = x → [r, p, l].Nodup → gets [(r, p), (p, r)]) ∧
     (r = p → l = x → r ≠ l → gets [(r, l), (l, r)]) ∧
     (r = l → p = x → r ≠ p → gets [(r, p), (p, r)]) ∧
     (r = x → p = l → r ≠ p → gets []) ∧
     (r = p → p = l → r ≠ x → gets [(r, x), (x, r)]) ∧
     (p = l → l = x → r ≠ p → gets [(p, r), (r, p)]) ∧
     (r = p → p = x → r ≠ l → gets []) ∧
     (r = l → l = x → r ≠ p → gets []) ∧
     (r = p → p = l → l = x → gets [])) ∧
    (isPermutation s.pv → isPermutation (fourMoves s).pv)

/-- mix plays no part in the input of its own step: two inputs from one state give the same PV, radix, pride and chasm, and
outputs that differ as the inputs do (42_byte_transform, other corner cases, f). -/
def Obligations.MixDoesNotReadTheInput : Prop :=
  ∀ (p q : Byte) (s : State), s.mode ≠ .idle → ∃ t u, exec (.encb p) s = .next t ∧ exec (.encb q) s = .next u ∧
    t.pv = u.pv ∧ t.radix = u.radix ∧ t.pride = u.pride ∧ t.chasm = u.chasm ∧ t.right ^^^ u.right = p ^^^ q

/-- R87, for whole sequences and any interleaving of ENCB and DECB: of two engines with the same handle, each in a session, one
runs the operations and the other the opposite operation on each output byte; it gets the inputs back, one byte for each, and
the two handles are the same again. In commands, from any two states: what KEY and ENCS encrypt, KEY and DECS decrypt. -/
def Obligations.PeerRecoversEveryByte : Prop :=
  (∀ (key plain : List Byte) (s s' : State), 1 ≤ key.length → key.length ≤ 256 →
    ∃ t t' words words',
      execAll ((Pseudo.key key).expand ++ (Pseudo.encs plain).expand) s = .next (t, words) ∧
      execAll ((Pseudo.key key).expand ++ (Pseudo.decs (Spec.outputBytes words)).expand) s' = .next (t', words') ∧
      Spec.outputBytes words' = plain ∧ Spec.sameHandle t t') ∧
  ∀ (ops : List (Bool × Byte)) (s s' : State), Spec.sameHandle s s' → s.mode ≠ .idle → s'.mode ≠ .idle →
    ∃ t t' words words', execAll (ops.map Spec.byteCommand) s = .next (t, words) ∧ words.length = ops.length ∧
      execAll (Spec.peerCommands ops words) s' = .next (t', words') ∧
      words'.length = ops.length ∧ words'.map rspDataField = ops.map Prod.snd ∧ Spec.sameHandle t t'

/-! ## FINAL -/

/-- FINAL n in a session: 256 whitening steps and n squeeze steps of the transform; the response is the n digest bytes in
order, or one status word; MODE, KEYBUF and the ports are unchanged. In IDLE: NoSession (R95). -/
def Obligations.FinalWhitensAndSqueezes : Prop :=
  ∀ (len : BitVec 16) (s : State), (encode (.final len)).toNat = 0x06000000 + len.toNat ∧
    (s.mode ≠ .idle → ∃ t, exec (.final len) s = .next t ∧
      Spec.handleOf t = (Spec.final len.toNat (Spec.handleOf s)).1 ∧
      (∀ i, Memory.read t.keybuf i = Memory.read s.keybuf i) ∧
      t = { s with pv := t.pv, radix := t.radix, pride := t.pride, chasm := t.chasm, left := t.left, right := t.right,
                   transients := .zero,
                   rsp := Spec.okWords s.mode (Spec.final len.toNat (Spec.handleOf s)).2 }) ∧
    (s.mode = .idle →
      exec (.final len) s = .next { s with transients := .zero, rsp := [Spec.statusWord 3 .idle] })

/-- R96: FINAL n is the ENCB sequence 255, ..., 0 followed by n times ENCB 0, its bytes the last n outputs; a shorter digest is
a prefix of a longer one; FINAL n and then m times ENCB 0 deliver the bytes of FINAL (n + m); and a second FINAL runs the
whitening pass again. -/
def Obligations.FinalIsAnEncbSequence : Prop :=
  ∀ s : State, s.mode ≠ .idle →
    (∀ n : BitVec 16, ∃ t words, exec (.final n) s = .next t ∧
      execAll (Spec.finalCommands n.toNat) s = .next ({ t with rsp := [] }, words) ∧
      Spec.outputBytes t.rsp = (words.drop 256).map rspDataField) ∧
    (∀ k n : BitVec 16, k.toNat ≤ n.toNat → ∃ t u, exec (.final k) s = .next t ∧ exec (.final n) s = .next u ∧
      Spec.outputBytes t.rsp = (Spec.outputBytes u.rsp).take k.toNat) ∧
    (∀ (n m : BitVec 16), n.toNat + m.toNat < 65536 →
      ∃ t u words words', execAll (.final n :: List.replicate m.toNat (.encb 0)) s = .next (t, words) ∧
        execAll [.final (n + m)] s = .next (u, words') ∧ t = u ∧ Spec.outputBytes words = Spec.outputBytes words') ∧
    (∀ n m : BitVec 16, ∃ t words words', execAll [.final n, .final m] s = .next (t, words) ∧
      execAll (Spec.finalCommands n.toNat ++ Spec.finalCommands m.toNat) s = .next (t, words'))

/-! ## SCRUB and STAT -/

/-- R100: SCRUB leaves the reset state, in every MODE, and answers in IDLE. -/
def Obligations.ScrubLeavesTheResetState : Prop :=
  (encode .scrub).toNat = 0x07000000 ∧
  ∀ s : State, ∃ t, exec .scrub s = .next t ∧ SameArch t State.reset ∧
    (∀ k, Memory.read t.pv k = 0 ∧ Memory.read t.keybuf k = 0) ∧
    t = { State.reset with rsp := [Spec.statusWord 0 .idle], offered := s.offered, inReset := s.inReset, host := s.host }

/-- R102: STAT reports MODE and changes nothing, in every MODE. -/
def Obligations.StatReportsModeOnly : Prop :=
  (encode .stat).toNat = 0x08000000 ∧
  ∀ s : State, exec .stat s = .next { s with transients := .zero, rsp := [Spec.statusWord 0 s.mode] }

/-! ## Responses and errors -/

/-- R53: every command, legal or not, gives the response of the rule: its words, at least one, LAST in the last and
no other, and as many output bytes as the command has. -/
def Obligations.EveryCommandAnswersOneResponse : Prop :=
  (∀ (w : CmdWord) (e : DecodeError) (s : State), decode w = .error e →
    ∃ t, execWord w s = .next t ∧ t.rsp = [Spec.statusWord 2 t.mode]) ∧
  ∀ (i : Instr) (s : State), ∃ (t : State) (out : List Byte), exec i s = .next t ∧
    t.rsp = (if Spec.errorOf i s.mode = .ok then Spec.okWords t.mode out
             else [Spec.statusWord (Spec.errorOf i s.mode).code.toNat t.mode]) ∧
    out.length = Spec.outputs i s.mode ∧ t.rsp ≠ [] ∧ t.rsp.countP rspLast = 1 ∧
    (∀ w, t.rsp.getLast? = some w → rspLast w = true) ∧ t.rsp.countP rspDv = Spec.outputs i s.mode

/-- R52: the fields of a response word read back what it was made of. -/
def Obligations.ResponseWordFields : Prop :=
  ∀ (e : ErrCode) (m : Mode) (last : Bool) (out : Option Byte),
    rspErr (responseWord e m last out) = e.code ∧ rspMode (responseWord e m last out) = m.code ∧
    rspLast (responseWord e m last out) = last ∧ rspDv (responseWord e m last out) = out.isSome ∧
    rspDataField (responseWord e m last out) = out.getD 0

/-- R111: exactly the errors of the table are raised, each by its cause and at most one by a command: IllegalCommand by the
word alone, and for a legal word every word of the response carries the code of `Spec.errorOf`, 0 for a command that passes
its tests. The three examples of the rule: INITK 300, INITK 0 in IDLE, and ENCB with a reserved bit in IDLE. -/
def Obligations.ErrorsHaveExactlyTheirCauses : Prop :=
  (∀ s : State,
    execWord 0x0200012C s = .next { s with transients := .zero, rsp := [Spec.statusWord 2 s.mode] } ∧
    (s.mode = .idle →
      execWord 0x02000000 s = .next { s with transients := .zero, rsp := [Spec.statusWord 1 .idle] } ∧
      execWord 0x04000141 s = .next { s with transients := .zero, rsp := [Spec.statusWord 2 .idle] })) ∧
  ∀ (w : CmdWord) (s : State), ∃ t, execWord w s = .next t ∧ t.rsp ≠ [] ∧
    ∀ x ∈ t.rsp, rspErr x = (match decode w with | .ok i => Spec.errorOf i s.mode | .error _ => ErrCode.illegalCommand).code

/-- R110: a command that raises an error changes no architectural state, saves nothing, and answers one word with the code,
the unchanged MODE, LAST = 1, DV = 0 and DATA = 0; for an illegal word likewise. When that word is taken and `rst` is low,
the engine is ready for the next command. -/
def Obligations.ErrorsChangeNothing : Prop :=
  (∀ (i : Instr) (s t : State), exec i s = .next t → (∃ w ∈ t.rsp, rspErr w ≠ 0) →
    t = { s with transients := .zero, rsp := t.rsp } ∧
    (∃ w, t.rsp = [w] ∧ rspMode w = s.mode.code ∧ rspLast w = true ∧ rspDv w = false ∧ rspDataField w = 0) ∧
    (s.inReset = false → ∃ u, hostAct .takeRsp t = .next u ∧ cmdReady u = true)) ∧
  ∀ (w : CmdWord) (s t : State) (e : DecodeError), decode w = .error e → execWord w s = .next t →
    t = { s with transients := .zero, rsp := t.rsp } ∧
    (∃ x, t.rsp = [x] ∧ rspErr x = 2 ∧ rspMode x = s.mode.code ∧ rspLast x = true ∧ rspDv x = false ∧ rspDataField x = 0) ∧
    (s.inReset = false → ∃ u, hostAct .takeRsp t = .next u ∧ cmdReady u = true)

/-- R109: ENCB, DECB and FINAL run alike in KEYED and DIGEST and raise no error in either; and only INITK and INITD write
KEYED or DIGEST into MODE. -/
def Obligations.KeyedAndDigestRunAlike : Prop :=
  (∀ (i : Instr) (s t : State), exec i s = .next t → t.mode ≠ .idle → t.mode ≠ s.mode →
    i.mnemonic = .initk ∧ t.mode = .keyed ∨ i.mnemonic = .initd ∧ t.mode = .digest) ∧
  ∀ (i : Instr) (s : State), i.mnemonic ∈ [Mnemonic.encb, .decb, .final] →
    ∃ t u, exec i { s with mode := .keyed } = .next t ∧ exec i { s with mode := .digest } = .next u ∧
      t.mode = .keyed ∧ u = { t with mode := .digest, rsp := u.rsp } ∧
      Spec.outputBytes t.rsp = Spec.outputBytes u.rsp ∧ (∀ w ∈ t.rsp, rspErr w = 0) ∧ (∀ w ∈ u.rsp, rspErr w = 0)

/-! ## What each command leaves alone -/

/-- The access matrix as a frame: which parts of the state each command may write, byte by byte for the memories, whatever its
outcome; the ports' inputs are never written by a command (10_state section 11). -/
def Obligations.CommandsWriteOnlyTheirColumns : Prop :=
  ∀ (i : Instr) (s t : State), exec i s = .next t →
    SamePorts s t ∧ t.transients = .zero ∧
    (i.mnemonic ∉ [Mnemonic.ldk, .scrub] → ∀ k, Memory.read t.keybuf k = Memory.read s.keybuf k) ∧
    (i.mnemonic ∉ [Mnemonic.initk, .initd, .scrub] → t.mode = s.mode) ∧
    (i.mnemonic ∈ [Mnemonic.ldk, .stat] →
      (∀ k, Memory.read t.pv k = Memory.read s.pv k) ∧ t.radix = s.radix ∧ t.pride = s.pride ∧ t.chasm = s.chasm ∧
        t.left = s.left ∧ t.right = s.right) ∧
    (∀ idx byte, i = .ldk idx byte → ∀ k, k ≠ idx → Memory.read t.keybuf k = Memory.read s.keybuf k)

/-- KEYBUF is read by INITK alone: from two states that differ in KEYBUF only, any other command gives the same handle, MODE
and response (10_state sections 4 and 12). -/
def Obligations.KeybufReachesOnlyInitk : Prop :=
  ∀ (i : Instr) (s : State) (k : Memory), i.mnemonic ≠ .initk →
    ∃ t u, exec i s = .next t ∧ exec i { s with keybuf := k } = .next u ∧ u = { t with keybuf := u.keybuf }

/-- The pseudo-instruction KEY stores its bytes from index 0 on, leaves the other key bytes, and starts the session of that
key (30_encoding section 7). -/
def Obligations.KeyPseudoStartsTheSession : Prop :=
  ∀ (bytes : List Byte) (s : State), 1 ≤ bytes.length → bytes.length ≤ 256 →
    ∃ t words, execAll (Pseudo.key bytes).expand s = .next (t, words) ∧
      (∀ k : Byte, Memory.read t.keybuf k = bytes.getD k.toNat (Memory.read s.keybuf k)) ∧ t.mode = .keyed ∧
      (∀ i, Memory.read t.pv i = (Spec.schedule (Memory.read t.keybuf) bytes.length).pv i) ∧
      words = List.replicate bytes.length (Spec.statusWord 0 s.mode) ++ [Spec.statusWord 0 .keyed]

/-! ## Accesses -/

/-- The recorded accesses are those of the command: carried out in order on the two memories before it, every read finds the
byte it recorded, and the writes leave the memories the command leaves; and likewise for every step of the machine, the reset
sequence among them (20_memory, 40_key_schedule, 70_reset; the trace functions are those of log entry 12). -/
def Obligations.TraceReplaysToTheSameMemories : Prop :=
  (∀ (i : Instr) (s t : State), i.wellFormed = true → MemoryInv s → exec i s = .next t →
    replay (accessTrace i s) (s.pv, s.keybuf) = some (t.pv, t.keybuf)) ∧
  ∀ s t : State, MemoryInv s → step s = .next t →
    replay (stepTrace s) (s.pv, s.keybuf) = some (t.pv, t.keybuf)

/-- The work of reset and of an illegal word, by the table of work: the reset sequence, run by the step that releases a high
`rst`, writes each of the 512 entries once and reads none; no other action of the host costs an access; an illegal word
costs none (70_reset section 5; the trace functions are those of log entry 12). -/
def Obligations.ResetMakesTheAccessesOfScrub : Prop :=
  (∀ (s : State) (rest : List HostAct), fetch s = none → s.host = .releaseRst :: rest → s.inReset = true →
    (countReads .pv (stepTrace s), countWrites .pv (stepTrace s),
      countReads .keybuf (stepTrace s), countWrites .keybuf (stepTrace s)) = (0, 256, 0, 256) ∧
    ∀ k : Byte, .write .pv k 0 ∈ stepTrace s ∧ .write .keybuf k 0 ∈ stepTrace s) ∧
  (∀ s : State, fetch s = none → ¬ (s.inReset = true ∧ s.host.head? = some .releaseRst) → stepTrace s = []) ∧
  ∀ (s : State) (w : CmdWord), fetch s = some w → Spec.illegal w → stepTrace s = []

/-- The transform steps of each command, and that ENCB, DECB and FINAL make the accesses of those steps and no others: one
step, M1 to M19, for ENCB and DECB, 256 + n for FINAL n, none for any other command or in IDLE (70_reset section 5; the trace
functions are those of log entry 12). -/
def Obligations.TransformStepsPerCommand : Prop :=
  ∀ (i : Instr) (s : State),
    transformSteps i s =
      (if s.mode = .idle then 0 else
        match i with
        | .encb _ => 1
        | .decb _ => 1
        | .final n => 256 + n.toNat
        | .ldk _ _ | .initk _ | .initd | .scrub | .stat => 0) ∧
    (i.mnemonic ∈ [Mnemonic.encb, .decb, .final] → accessTrace i s = (transformStarts i s).flatMap transformTrace) ∧
    ∀ u ∈ transformStarts i s, countReads .pv (transformTrace u) = 14 ∧ countWrites .pv (transformTrace u) = 4 ∧
      countReads .keybuf (transformTrace u) = 0 ∧ countWrites .keybuf (transformTrace u) = 0

/-- The work per command, counted in accesses: PV reads, PV writes, KEYBUF reads, KEYBUF writes; none for a command that
raises an error (70_reset section 5, 40_key_schedule; the trace functions are those of log entry 12). -/
def Obligations.AccessCountsPerCommand : Prop :=
  ∀ (i : Instr) (s : State), i.wellFormed = true →
    (let l := accessTrace i s
     let counts := (countReads .pv l, countWrites .pv l, countReads .keybuf l, countWrites .keybuf l)
     if Spec.errorOf i s.mode ≠ .ok then counts = (0, 0, 0, 0) else
     match i with
     | .ldk _ _ => counts = (0, 0, 0, 1)
     | .initk _ => ∃ d, 256 ≤ d ∧ d ≤ 2973 ∧ counts = (d + 517, 768, d, 0)
     | .initd => counts = (0, 256, 0, 0)
     | .encb _ => counts = (14, 4, 0, 0)
     | .decb _ => counts = (14, 4, 0, 0)
     | .final n => counts = (14 * (256 + n.toNat), 4 * (256 + n.toNat), 0, 0)
     | .scrub => counts = (0, 256, 0, 256)
     | .stat => counts = (0, 0, 0, 0))

/-! ## Invariants of every step -/

/-- R14: in a session PV is a bijection, and in IDLE the handle is zero: every step keeps it. -/
def Obligations.StepKeepsThePermutation : Prop :=
  ∀ s t : State, HandleInv s → step s = .next t → HandleInv t

/-- The canonical form of both memories is kept by every step (the form is the model's, log entry 3). -/
def Obligations.StepKeepsMemoriesCanonical : Prop :=
  ∀ s t : State, MemoryInv s → step s = .next t → MemoryInv t

/-- Between commands every transient is zero: every step keeps it (10_state section 6). -/
def Obligations.StepKeepsTransientsZero : Prop :=
  ∀ s t : State, QuietInv s → step s = .next t → QuietInv t

/-- The response port holds the rest of one response, of words the engine can produce in its MODE: every step keeps it. -/
def Obligations.StepKeepsResponsesWellFormed : Prop :=
  ∀ s t : State, ResponseInv s → step s = .next t → ResponseInv t

/-- While `rst` is high no response word is pending: every step keeps it (70_reset section 1). -/
def Obligations.StepKeepsNoWordDuringReset : Prop :=
  ∀ s t : State, ResetInv s → step s = .next t → ResetInv t

/-- The reset state has the five invariants of a safe state; MODE is IDLE, so that the invariant of the handle makes PV and the
five registers zero; KEYBUF reads 0; no response word is pending (10_state section 10, 70_reset section 1). The model's choices
in it: the canonical form of the memories (log entry 3) and that `rst` is low (log entry 5). -/
def Obligations.ResetIsSafe : Prop :=
  SafeState State.reset ∧ State.reset.mode = .idle ∧ (∀ k, Memory.read State.reset.keybuf k = 0) ∧
    State.reset.rsp = [] ∧ State.reset.inReset = false

/-! ## The ports -/

/-- When the word accepted decodes to a command, the step is the command's meaning at the state whose port that word has
left. That an offered word is accepted before the host acts again is the model's order (log entry 1). -/
def Obligations.StepRunsTheDecodedCommand : Prop :=
  ∀ (s : State) (w : CmdWord) (i : Instr), s.rsp = [] → s.inReset = false → s.offered = some w → decode w = .ok i →
    step s = exec i { s with offered := none }

/-- An accepted word that is illegal (an unknown op, a reserved bit that is not zero, or INITK above 256) raises IllegalCommand
whatever MODE is (60_exceptions section 1). That an offered word is accepted before the host acts again is the model's order
(log entry 1). -/
def Obligations.IllegalWordRaisesIllegalCommand : Prop :=
  ∀ (s : State) (w : CmdWord),
    s.rsp = [] → s.inReset = false → s.offered = some w → Spec.illegal w →
    step s = .next { s with offered := none, transients := .zero, rsp := [Spec.statusWord 2 s.mode] }

/-- While a response word is still to be taken, no command starts: a step gives the host one turn, and what that does depends
on the host's action alone. Taking a word shortens the response by its first word, raising `rst` drops it, and neither changes
the architectural state; releasing a `rst` that was high leaves the reset state; anything else leaves the response and the
architectural state alone (70_reset sections 1 and 4). The model's choices in it: one action of the host a step (log entry 1),
and the architectural state kept while `rst` is high, to be zeroed at its release (log entry 4). A word pending while `rst` is
high is a case no run reaches (`ResetInv`). -/
def Obligations.NoCommandStartsBeforeTheResponseIsTaken : Prop :=
  ∀ s t : State, s.rsp ≠ [] → step s = .next t →
    fetch s = none ∧
    (if s.host.head? = some .releaseRst ∧ s.inReset = true then
      SameArch t State.reset ∧ t.transients = .zero ∧ t.rsp = [] ∧ t.inReset = false
    else
      SameArch s t ∧ t.transients = s.transients ∧
      (if s.host.head? = some .takeRsp then t.rsp = s.rsp.tail ∧ t.inReset = s.inReset
       else if s.host.head? = some .assertRst then t.rsp = [] ∧ t.inReset = true
       else t.rsp = s.rsp ∧ t.inReset = s.inReset))

/-- A host that takes no further word and never asserts `rst` is stuck: in any number of steps the pending response and the
architectural state stay as they are and no command is accepted; releasing a `rst` that is low does nothing (70_reset section
4). The list of the host's actions and its order are the model's (log entry 1). -/
def Obligations.UndrainedHostIsStuck : Prop :=
  ∀ (n : Nat) (s t : State), s.rsp ≠ [] → s.inReset = false →
    (∀ a ∈ s.host, a ≠ .takeRsp ∧ a ≠ .assertRst) → core.run n s = .next t →
    t.rsp = s.rsp ∧ SameArch s t ∧ fetch t = none

/-- Reset from any state in which the host has its turn: `rst` high and low again leaves the reset state, whatever was pending
(70_reset section 1). The order of the host's actions is the model's (log entry 1). -/
def Obligations.ResetReachesTheResetState : Prop :=
  ∀ (s : State) (rest : List HostAct), fetch s = none → s.host = .assertRst :: .releaseRst :: rest →
    core.run 2 s = .next { State.reset with offered := s.offered, host := rest }

/-- Every accepted word completes: it gives 1 to 65535 response words, and a host that takes them finds the engine ready
again with its state as the command left it (70_reset section 4). The order of the host's actions is the model's (log
entry 1). -/
def Obligations.AcceptedWordsCompleteAndDrain : Prop :=
  ∀ (s : State) (w : CmdWord), fetch s = some w → ∃ t, step s = .next t ∧ 1 ≤ t.rsp.length ∧ t.rsp.length ≤ 65535 ∧
    t.host = s.host ∧ ∀ rest, s.host = List.replicate t.rsp.length .takeRsp ++ rest →
      core.run (t.rsp.length + 1) s = .next { t with rsp := [], host := rest } ∧
      cmdReady { t with rsp := [], host := rest } = true

/-- No command stops the machine: every one gives a next state, and a step answers something else only where the host changes
the word it offers (60_exceptions section 2; 70_reset section 3). -/
def Obligations.OnlyTheHostCanLeaveTheModel : Prop :=
  (∀ (i : Instr) (s : State), ∃ t, exec i s = .next t) ∧
  ∀ s : State, (∃ t, step s = .next t) ∨
    (step s = .refused .cmdDataChanged ∧
      ∃ v w rest, s.offered = some v ∧ s.host = .raiseCmd w :: rest ∧ v ≠ w ∧ fetch s = none)
end

