-- ==== Sys2Proof/Laws/Memory.lean ====
section
/-! SUPPORT. The laws of the two memories: a read after a write, the content of a fill, and the canonical form, which every
operation keeps and in which memories that read alike are equal (20_memory R31, R32; log entry 3). -/

namespace Sys2Proof.Machine

theorem Memory.read_nil (a : Byte) : Memory.read [] a = 0#8 := rfl

/-- R31: the next read of an index returns the byte written there. -/
@[simp] theorem Memory.read_write_same (m : Memory) (a v : Byte) : Memory.read (Memory.write m a v) a = v := by
  induction m with
  | nil =>
    by_cases hv : v = 0#8
    · simp [Memory.write, Memory.read, hv]
    · simp [Memory.write, Memory.read, hv]
  | cons c m ih =>
    obtain ⟨k, w⟩ := c
    by_cases hk : a.toNat = k
    · by_cases hv : v = 0#8
      · simp only [Memory.write, if_pos hk, if_pos hv, ih]
      · simp only [Memory.write, if_pos hk, if_neg hv, Memory.read]
    · by_cases hl : a.toNat < k ∧ v ≠ 0#8
      · simp [Memory.write, if_neg hk, if_pos hl, Memory.read]
      · simp only [Memory.write, if_neg hk, if_neg hl, Memory.read, ih]

/-- R31: a write leaves every other index alone. -/
theorem Memory.read_write_other (m : Memory) {a b : Byte} (v : Byte) (h : b ≠ a) :
    Memory.read (Memory.write m a v) b = Memory.read m b := by
  have hn : b.toNat ≠ a.toNat := fun e => h (BitVec.eq_of_toNat_eq e)
  induction m with
  | nil =>
    by_cases hv : v = 0#8
    · simp [Memory.write, hv]
    · simp [Memory.write, Memory.read, hv, hn]
  | cons c m ih =>
    obtain ⟨k, w⟩ := c
    by_cases hk : a.toNat = k
    · have hbk : b.toNat ≠ k := hk ▸ hn
      by_cases hv : v = 0#8
      · simp only [Memory.write, if_pos hk, if_pos hv, ih, Memory.read, if_neg hbk]
      · simp only [Memory.write, if_pos hk, if_neg hv, Memory.read, if_neg hbk]
    · by_cases hl : a.toNat < k ∧ v ≠ 0#8
      · simp only [Memory.write, if_neg hk, if_pos hl, Memory.read, if_neg hn]
      · simp only [Memory.write, if_neg hk, if_neg hl, Memory.read, ih]

/-- A read after a write, both cases at once. -/
theorem Memory.read_write (m : Memory) (a b v : Byte) :
    Memory.read (Memory.write m a v) b = if b = a then v else Memory.read m b := by
  split
  · rename_i h
    rw [h, Memory.read_write_same]
  · exact Memory.read_write_other m v ‹_›

/-! ## The canonical form -/

theorem Memory.wfFrom_cons {lo k : Nat} {v : Byte} {m : Memory} :
    Memory.wfFrom lo ((k, v) :: m) = true ↔ lo ≤ k ∧ k < 256 ∧ v ≠ 0#8 ∧ Memory.wfFrom (k + 1) m = true := by
  simp [Memory.wfFrom, and_assoc]

/-- A canonical form from a higher index on is one from a lower index on. -/
theorem Memory.wfFrom_mono {lo lo' : Nat} (h : lo ≤ lo') {m : Memory} (hm : Memory.wfFrom lo' m = true) :
    Memory.wfFrom lo m = true := by
  cases m with
  | nil => rfl
  | cons c m =>
    obtain ⟨k, v⟩ := c
    rw [Memory.wfFrom_cons] at hm ⊢
    exact ⟨h.trans hm.1, hm.2⟩

theorem Memory.wfFrom_write {lo : Nat} {m : Memory} (a v : Byte) (ha : lo ≤ a.toNat)
    (hm : Memory.wfFrom lo m = true) : Memory.wfFrom lo (Memory.write m a v) = true := by
  have hlt : a.toNat < 256 := a.isLt
  induction m generalizing lo with
  | nil =>
    by_cases hv : v = 0#8
    · simp [Memory.write, hv, Memory.wfFrom]
    · simp [Memory.write, hv, ha, hlt, Memory.wfFrom]
  | cons c m ih =>
    obtain ⟨k, w⟩ := c
    have hm' := hm
    rw [Memory.wfFrom_cons] at hm
    obtain ⟨hlo, hk256, hw, hrest⟩ := hm
    by_cases hk : a.toNat = k
    · by_cases hv : v = 0#8
      · simp only [Memory.write, if_pos hk, if_pos hv]
        exact ih ha (Memory.wfFrom_mono (by omega) hrest)
      · simp only [Memory.write, if_pos hk, if_neg hv, Memory.wfFrom_cons]
        exact ⟨hlo, hk256, hv, hrest⟩
    · by_cases hl : a.toNat < k ∧ v ≠ 0#8
      · simp only [Memory.write, if_neg hk, if_pos hl]
        rw [Memory.wfFrom_cons]
        exact ⟨ha, hlt, hl.2, Memory.wfFrom_cons.2 ⟨hl.1, hk256, hw, hrest⟩⟩
      · simp only [Memory.write, if_neg hk, if_neg hl, Memory.wfFrom_cons]
        by_cases hlt' : k + 1 ≤ a.toNat
        · exact ⟨hlo, hk256, hw, ih hlt' hrest⟩
        · have hv : v = 0#8 := by
            by_contra hv
            exact hl ⟨by omega, hv⟩
          subst hv
          refine ⟨hlo, hk256, hw, ?_⟩
          clear ih hm' hlo hl
          -- writing 0 below the first listed index changes nothing
          have key : ∀ (lo : Nat) (m : Memory), a.toNat < lo → Memory.wfFrom lo m = true →
              Memory.wfFrom lo (Memory.write m a 0#8) = true := by
            intro lo m
            induction m generalizing lo with
            | nil => intro _ _; simp [Memory.write, Memory.wfFrom]
            | cons c m ih =>
              obtain ⟨k, w⟩ := c
              intro hlo hm
              rw [Memory.wfFrom_cons] at hm
              obtain ⟨h1, h2, h3, h4⟩ := hm
              have hne : a.toNat ≠ k := by omega
              simp only [Memory.write, if_neg hne, ne_eq, not_true_eq_false, and_false, if_false,
                Memory.wfFrom_cons]
              exact ⟨h1, h2, h3, ih (k + 1) (by omega) h4⟩
          exact key (k + 1) m (by omega) hrest

/-- A write keeps the canonical form. -/
theorem Memory.wf_write {m : Memory} (a v : Byte) (hm : Memory.wf m = true) :
    Memory.wf (Memory.write m a v) = true :=
  Memory.wfFrom_write a v (Nat.zero_le _) hm

theorem Memory.wfFrom_fillFrom (f : Byte → Byte) (n k : Nat) (h : k + n ≤ 256) :
    Memory.wfFrom k (Memory.fillFrom f n k) = true := by
  induction n generalizing k with
  | zero => rfl
  | succ n ih =>
    by_cases hf : f (BitVec.ofNat 8 k) = 0#8
    · simp only [Memory.fillFrom, if_pos hf]
      exact Memory.wfFrom_mono (Nat.le_succ k) (ih (k + 1) (by omega))
    · simp only [Memory.fillFrom, if_neg hf, Memory.wfFrom_cons]
      exact ⟨Nat.le_refl k, by omega, hf, ih (k + 1) (by omega)⟩

/-- A fill is in canonical form. -/
@[simp] theorem Memory.wf_fill (f : Byte → Byte) : Memory.wf (Memory.fill f) = true :=
  Memory.wfFrom_fillFrom f 256 0 (Nat.le_refl _)

/-- Below the first index of a canonical form every entry reads 0. -/
theorem Memory.read_below {lo : Nat} {m : Memory} (hm : Memory.wfFrom lo m = true) (a : Byte) (ha : a.toNat < lo) :
    Memory.read m a = 0#8 := by
  induction m generalizing lo with
  | nil => rfl
  | cons c m ih =>
    obtain ⟨k, v⟩ := c
    rw [Memory.wfFrom_cons] at hm
    have hne : a.toNat ≠ k := by omega
    simp only [Memory.read, if_neg hne]
    exact ih hm.2.2.2 (by omega)

theorem Memory.read_fillFrom (f : Byte → Byte) (n k : Nat) (h : k + n ≤ 256) (a : Byte)
    (ha : k ≤ a.toNat) (ha' : a.toNat < k + n) : Memory.read (Memory.fillFrom f n k) a = f a := by
  induction n generalizing k with
  | zero => omega
  | succ n ih =>
    have hka : a.toNat = k → BitVec.ofNat 8 k = a := fun e => by
      apply BitVec.eq_of_toNat_eq
      rw [BitVec.toNat_ofNat]
      omega
    by_cases hf : f (BitVec.ofNat 8 k) = 0#8
    · simp only [Memory.fillFrom, if_pos hf]
      by_cases hk : a.toNat = k
      · rw [Memory.read_below (Memory.wfFrom_fillFrom f n (k + 1) (by omega)) a (by omega), ← hka hk, hf]
      · exact ih (k + 1) (by omega) (by omega) (by omega)
    · simp only [Memory.fillFrom, if_neg hf, Memory.read]
      by_cases hk : a.toNat = k
      · rw [if_pos hk, hka hk]
      · rw [if_neg hk]
        exact ih (k + 1) (by omega) (by omega) (by omega)

/-- R67, R77, R100: after a fill, entry k holds what was written there. -/
@[simp] theorem Memory.read_fill (f : Byte → Byte) (a : Byte) : Memory.read (Memory.fill f) a = f a :=
  Memory.read_fillFrom f 256 0 (Nat.le_refl _) a (Nat.zero_le _) (by have := a.isLt; omega)

/-- Canonical memories that read alike are equal (log entry 3). -/
theorem Memory.wfFrom_ext {lo : Nat} {m m' : Memory} (hm : Memory.wfFrom lo m = true) (hm' : Memory.wfFrom lo m' = true)
    (h : ∀ a, Memory.read m a = Memory.read m' a) : m = m' := by
  have toNat_of : ∀ k, k < 256 → (BitVec.ofNat 8 k).toNat = k := fun k hk => by
    rw [BitVec.toNat_ofNat]; omega
  induction m generalizing lo m' with
  | nil =>
    cases m' with
    | nil => rfl
    | cons c m' =>
      obtain ⟨k, v⟩ := c
      rw [Memory.wfFrom_cons] at hm'
      have := h (BitVec.ofNat 8 k)
      simp only [Memory.read, toNat_of k hm'.2.1, if_true] at this
      exact absurd this.symm hm'.2.2.1
  | cons c m ih =>
    obtain ⟨k, v⟩ := c
    have hc := hm
    rw [Memory.wfFrom_cons] at hm
    cases m' with
    | nil =>
      have := h (BitVec.ofNat 8 k)
      simp only [Memory.read, toNat_of k hm.2.1, if_true] at this
      exact absurd this hm.2.2.1
    | cons c' m' =>
      obtain ⟨k', v'⟩ := c'
      have hc' := hm'
      rw [Memory.wfFrom_cons] at hm'
      have hkk : k = k' := by
        rcases Nat.lt_trichotomy k k' with hlt | heq | hgt
        · have e := h (BitVec.ofNat 8 k)
          rw [Memory.read_below (lo := k') (Memory.wfFrom_cons.2 ⟨Nat.le_refl _, hm'.2⟩) _
            (by rw [toNat_of k hm.2.1]; exact hlt)] at e
          simp only [Memory.read, toNat_of k hm.2.1, if_true] at e
          exact absurd e hm.2.2.1
        · exact heq
        · have e := h (BitVec.ofNat 8 k')
          rw [Memory.read_below (lo := k) (m := (k, v) :: m) (Memory.wfFrom_cons.2 ⟨Nat.le_refl _, hm.2⟩) _
            (by rw [toNat_of k' hm'.2.1]; exact hgt)] at e
          simp only [Memory.read, toNat_of k' hm'.2.1, if_true] at e
          exact absurd e.symm hm'.2.2.1
      subst hkk
      have hv : v = v' := by
        have e := h (BitVec.ofNat 8 k)
        simpa only [Memory.read, toNat_of k hm.2.1, if_true] using e
      subst hv
      have hmm : m = m' := by
        refine ih hm.2.2.2 hm'.2.2.2 fun a => ?_
        by_cases ha : a.toNat = k
        · rw [Memory.read_below hm.2.2.2 a (by omega), Memory.read_below hm'.2.2.2 a (by omega)]
        · have e := h a
          simpa only [Memory.read, if_neg ha] using e
      rw [hmm]

/-- Canonical memories that read alike are equal (log entry 3). -/
theorem Memory.wf_ext {m m' : Memory} (hm : Memory.wf m = true) (hm' : Memory.wf m' = true)
    (h : ∀ a, Memory.read m a = Memory.read m' a) : m = m' :=
  Memory.wfFrom_ext hm hm' h

/-- Writing 0 into every entry leaves no cell listed (R28, R100). -/
theorem Memory.fill_zero : Memory.fill (fun _ => 0#8) = Memory.zeros :=
  Memory.wf_ext (Memory.wf_fill _) rfl fun a => by rw [Memory.read_fill]; rfl

/-- R28: every entry of a zeroed memory reads 0. -/
@[simp] theorem Memory.read_zeros (a : Byte) : Memory.read Memory.zeros a = 0#8 := rfl

@[simp] theorem Memory.wf_zeros : Memory.wf Memory.zeros = true := rfl

end Sys2Proof.Machine
end

