-- ==== Sys2Proof/Laws/PerInstr.lean ====
section
/-! SUPPORT. Facts about every command as syntax, one lemma per constructor. -/

namespace Sys2Proof.Laws.OpcodeField

/-- The opcode of each command (30_encoding R49). -/
def opcodeOf : Mnemonic → Byte
  | .ldk => 0x01
  | .initk => 0x02
  | .initd => 0x03
  | .encb => 0x04
  | .decb => 0x05
  | .final => 0x06
  | .scrub => 0x07
  | .stat => 0x08
  | .key => 0x00
  | .encs => 0x00
  | .decs => 0x00
  | .absorb => 0x00

/-- The word of a command carries its opcode in bits 31:24 and 0 in the reserved bits 23:16 (R46, R47). -/
def Statement (i : Instr) : Prop := opField (encode i) = opcodeOf i.mnemonic ∧ zeroField (encode i) = 0

/-- In a word of 8, 8 and 16 bits, the first two pieces stand at 31:24 and 23:16. -/
theorem fields_of_append (op zero : Byte) (rest : BitVec 16) :
    opField (op ++ zero ++ rest) = op ∧ zeroField (op ++ zero ++ rest) = zero := by
  constructor
  · apply BitVec.eq_of_getLsbD_eq
    intro k hk
    simp only [opField, BitVec.getLsbD_extractLsb', BitVec.getLsbD_append]
    simp [show ¬ 24 + k < 16 by omega, show ¬ 24 + k - 16 < 8 by omega, show 24 + k - 16 - 8 = k by omega, hk]
  · apply BitVec.eq_of_getLsbD_eq
    intro k hk
    simp only [zeroField, BitVec.getLsbD_extractLsb', BitVec.getLsbD_append]
    simp [show ¬ 16 + k < 16 by omega, show 16 + k - 16 = k by omega, hk]

theorem ldk (idx byte : Byte) : Statement (.ldk idx byte) := by
  have h := fields_of_append 0x01 0x00 (idx ++ byte)
  have e : encode (.ldk idx byte) = (0x01 : Byte) ++ (0x00 : Byte) ++ (idx ++ byte) := by
    apply BitVec.eq_of_getLsbD_eq
    intro k hk
    simp only [encode, formatK, BitVec.getLsbD_append]
    by_cases h1 : k < 8
    · simp [h1, show k < 16 by omega]
    · by_cases h2 : k < 16
      · simp [h1, h2, show k - 8 < 8 by omega]
      · simp [h1, h2, show ¬ k - 8 < 8 by omega, show k - 8 - 8 = k - 16 by omega]
  exact ⟨e ▸ h.1, e ▸ h.2⟩

theorem initk (len : BitVec 16) : Statement (.initk len) := fields_of_append 0x02 0x00 len

theorem initd : Statement .initd := ⟨by decide, by decide⟩

/-- In a word of 8, 16 and 8 bits with 0 in the middle, the opcode stands at 31:24 and 0 at 23:16. -/
theorem fields_of_formatB (op byte : Byte) : opField (formatB op byte) = op ∧ zeroField (formatB op byte) = 0 := by
  constructor
  · apply BitVec.eq_of_getLsbD_eq
    intro k hk
    simp only [opField, formatB, BitVec.getLsbD_extractLsb', BitVec.getLsbD_append]
    simp [show ¬ 24 + k < 8 by omega, show ¬ 24 + k - 8 < 16 by omega, show 24 + k - 8 - 16 = k by omega, hk]
  · apply BitVec.eq_of_getLsbD_eq
    intro k hk
    simp only [zeroField, formatB, BitVec.getLsbD_extractLsb', BitVec.getLsbD_append]
    simp [show ¬ 16 + k < 8 by omega, show 16 + k - 8 < 16 by omega]

theorem encb (byte : Byte) : Statement (.encb byte) := fields_of_formatB 0x04 byte

theorem decb (byte : Byte) : Statement (.decb byte) := fields_of_formatB 0x05 byte

theorem final (len : BitVec 16) : Statement (.final len) := fields_of_append 0x06 0x00 len

theorem scrub : Statement .scrub := ⟨by decide, by decide⟩

theorem stat : Statement .stat := ⟨by decide, by decide⟩

end Sys2Proof.Laws.OpcodeField
end

