-- ==== Sys2Proof/Laws/State.lean ====
section
/-! SUPPORT. One lemma per field per update of the state, each true by unfolding, so that no proof unfolds a record update; and
for each operation that branches or loops, the fields it never touches. -/

namespace Sys2Proof.Machine

/-! ## Updates without a branch -/

@[simp] theorem clearTransients_pv (s : State) :
    (clearTransients s).pv = s.pv := rfl
@[simp] theorem clearTransients_radix (s : State) :
    (clearTransients s).radix = s.radix := rfl
@[simp] theorem clearTransients_pride (s : State) :
    (clearTransients s).pride = s.pride := rfl
@[simp] theorem clearTransients_chasm (s : State) :
    (clearTransients s).chasm = s.chasm := rfl
@[simp] theorem clearTransients_left (s : State) :
    (clearTransients s).left = s.left := rfl
@[simp] theorem clearTransients_right (s : State) :
    (clearTransients s).right = s.right := rfl
@[simp] theorem clearTransients_mode (s : State) :
    (clearTransients s).mode = s.mode := rfl
@[simp] theorem clearTransients_keybuf (s : State) :
    (clearTransients s).keybuf = s.keybuf := rfl
@[simp] theorem clearTransients_transients (s : State) :
    (clearTransients s).transients = Transients.zero := rfl
@[simp] theorem clearTransients_rsp (s : State) :
    (clearTransients s).rsp = s.rsp := rfl
@[simp] theorem clearTransients_offered (s : State) :
    (clearTransients s).offered = s.offered := rfl
@[simp] theorem clearTransients_inReset (s : State) :
    (clearTransients s).inReset = s.inReset := rfl
@[simp] theorem clearTransients_host (s : State) :
    (clearTransients s).host = s.host := rfl

@[simp] theorem setPv_pv (s : State) (i v : Byte) :
    (setPv s i v).pv = Memory.write s.pv i v := rfl
@[simp] theorem setPv_radix (s : State) (i v : Byte) :
    (setPv s i v).radix = s.radix := rfl
@[simp] theorem setPv_pride (s : State) (i v : Byte) :
    (setPv s i v).pride = s.pride := rfl
@[simp] theorem setPv_chasm (s : State) (i v : Byte) :
    (setPv s i v).chasm = s.chasm := rfl
@[simp] theorem setPv_left (s : State) (i v : Byte) :
    (setPv s i v).left = s.left := rfl
@[simp] theorem setPv_right (s : State) (i v : Byte) :
    (setPv s i v).right = s.right := rfl
@[simp] theorem setPv_mode (s : State) (i v : Byte) :
    (setPv s i v).mode = s.mode := rfl
@[simp] theorem setPv_keybuf (s : State) (i v : Byte) :
    (setPv s i v).keybuf = s.keybuf := rfl
@[simp] theorem setPv_transients (s : State) (i v : Byte) :
    (setPv s i v).transients = s.transients := rfl
@[simp] theorem setPv_rsp (s : State) (i v : Byte) :
    (setPv s i v).rsp = s.rsp := rfl
@[simp] theorem setPv_offered (s : State) (i v : Byte) :
    (setPv s i v).offered = s.offered := rfl
@[simp] theorem setPv_inReset (s : State) (i v : Byte) :
    (setPv s i v).inReset = s.inReset := rfl
@[simp] theorem setPv_host (s : State) (i v : Byte) :
    (setPv s i v).host = s.host := rfl

@[simp] theorem respond_pv (out : List Byte) (s : State) :
    (respond out s).pv = s.pv := rfl
@[simp] theorem respond_radix (out : List Byte) (s : State) :
    (respond out s).radix = s.radix := rfl
@[simp] theorem respond_pride (out : List Byte) (s : State) :
    (respond out s).pride = s.pride := rfl
@[simp] theorem respond_chasm (out : List Byte) (s : State) :
    (respond out s).chasm = s.chasm := rfl
@[simp] theorem respond_left (out : List Byte) (s : State) :
    (respond out s).left = s.left := rfl
@[simp] theorem respond_right (out : List Byte) (s : State) :
    (respond out s).right = s.right := rfl
@[simp] theorem respond_mode (out : List Byte) (s : State) :
    (respond out s).mode = s.mode := rfl
@[simp] theorem respond_keybuf (out : List Byte) (s : State) :
    (respond out s).keybuf = s.keybuf := rfl
@[simp] theorem respond_transients (out : List Byte) (s : State) :
    (respond out s).transients = Transients.zero := rfl
@[simp] theorem respond_rsp (out : List Byte) (s : State) :
    (respond out s).rsp = responseWords .ok s.mode out := rfl
@[simp] theorem respond_offered (out : List Byte) (s : State) :
    (respond out s).offered = s.offered := rfl
@[simp] theorem respond_inReset (out : List Byte) (s : State) :
    (respond out s).inReset = s.inReset := rfl
@[simp] theorem respond_host (out : List Byte) (s : State) :
    (respond out s).host = s.host := rfl

@[simp] theorem raise_pv (e : ErrCode) (s : State) :
    (raise e s).pv = s.pv := rfl
@[simp] theorem raise_radix (e : ErrCode) (s : State) :
    (raise e s).radix = s.radix := rfl
@[simp] theorem raise_pride (e : ErrCode) (s : State) :
    (raise e s).pride = s.pride := rfl
@[simp] theorem raise_chasm (e : ErrCode) (s : State) :
    (raise e s).chasm = s.chasm := rfl
@[simp] theorem raise_left (e : ErrCode) (s : State) :
    (raise e s).left = s.left := rfl
@[simp] theorem raise_right (e : ErrCode) (s : State) :
    (raise e s).right = s.right := rfl
@[simp] theorem raise_mode (e : ErrCode) (s : State) :
    (raise e s).mode = s.mode := rfl
@[simp] theorem raise_keybuf (e : ErrCode) (s : State) :
    (raise e s).keybuf = s.keybuf := rfl
@[simp] theorem raise_transients (e : ErrCode) (s : State) :
    (raise e s).transients = Transients.zero := rfl
@[simp] theorem raise_rsp (e : ErrCode) (s : State) :
    (raise e s).rsp = responseWords e s.mode [] := rfl
@[simp] theorem raise_offered (e : ErrCode) (s : State) :
    (raise e s).offered = s.offered := rfl
@[simp] theorem raise_inReset (e : ErrCode) (s : State) :
    (raise e s).inReset = s.inReset := rfl
@[simp] theorem raise_host (e : ErrCode) (s : State) :
    (raise e s).host = s.host := rfl

@[simp] theorem zeroise_pv (s : State) :
    (zeroise s).pv = Memory.zeros := rfl
@[simp] theorem zeroise_radix (s : State) :
    (zeroise s).radix = 0 := rfl
@[simp] theorem zeroise_pride (s : State) :
    (zeroise s).pride = 0 := rfl
@[simp] theorem zeroise_chasm (s : State) :
    (zeroise s).chasm = 0 := rfl
@[simp] theorem zeroise_left (s : State) :
    (zeroise s).left = 0 := rfl
@[simp] theorem zeroise_right (s : State) :
    (zeroise s).right = 0 := rfl
@[simp] theorem zeroise_mode (s : State) :
    (zeroise s).mode = .idle := rfl
@[simp] theorem zeroise_keybuf (s : State) :
    (zeroise s).keybuf = Memory.zeros := rfl
@[simp] theorem zeroise_transients (s : State) :
    (zeroise s).transients = Transients.zero := rfl
@[simp] theorem zeroise_rsp (s : State) :
    (zeroise s).rsp = s.rsp := rfl
@[simp] theorem zeroise_offered (s : State) :
    (zeroise s).offered = s.offered := rfl
@[simp] theorem zeroise_inReset (s : State) :
    (zeroise s).inReset = s.inReset := rfl
@[simp] theorem zeroise_host (s : State) :
    (zeroise s).host = s.host := rfl

@[simp] theorem consume_pv (s : State) :
    (consume s).pv = s.pv := rfl
@[simp] theorem consume_radix (s : State) :
    (consume s).radix = s.radix := rfl
@[simp] theorem consume_pride (s : State) :
    (consume s).pride = s.pride := rfl
@[simp] theorem consume_chasm (s : State) :
    (consume s).chasm = s.chasm := rfl
@[simp] theorem consume_left (s : State) :
    (consume s).left = s.left := rfl
@[simp] theorem consume_right (s : State) :
    (consume s).right = s.right := rfl
@[simp] theorem consume_mode (s : State) :
    (consume s).mode = s.mode := rfl
@[simp] theorem consume_keybuf (s : State) :
    (consume s).keybuf = s.keybuf := rfl
@[simp] theorem consume_transients (s : State) :
    (consume s).transients = s.transients := rfl
@[simp] theorem consume_rsp (s : State) :
    (consume s).rsp = s.rsp := rfl
@[simp] theorem consume_offered (s : State) :
    (consume s).offered = none := rfl
@[simp] theorem consume_inReset (s : State) :
    (consume s).inReset = s.inReset := rfl
@[simp] theorem consume_host (s : State) :
    (consume s).host = s.host := rfl

@[simp] theorem assertReset_pv (s : State) :
    (assertReset s).pv = s.pv := rfl
@[simp] theorem assertReset_radix (s : State) :
    (assertReset s).radix = s.radix := rfl
@[simp] theorem assertReset_pride (s : State) :
    (assertReset s).pride = s.pride := rfl
@[simp] theorem assertReset_chasm (s : State) :
    (assertReset s).chasm = s.chasm := rfl
@[simp] theorem assertReset_left (s : State) :
    (assertReset s).left = s.left := rfl
@[simp] theorem assertReset_right (s : State) :
    (assertReset s).right = s.right := rfl
@[simp] theorem assertReset_mode (s : State) :
    (assertReset s).mode = s.mode := rfl
@[simp] theorem assertReset_keybuf (s : State) :
    (assertReset s).keybuf = s.keybuf := rfl
@[simp] theorem assertReset_transients (s : State) :
    (assertReset s).transients = s.transients := rfl
@[simp] theorem assertReset_rsp (s : State) :
    (assertReset s).rsp = [] := rfl
@[simp] theorem assertReset_offered (s : State) :
    (assertReset s).offered = s.offered := rfl
@[simp] theorem assertReset_inReset (s : State) :
    (assertReset s).inReset = true := rfl
@[simp] theorem assertReset_host (s : State) :
    (assertReset s).host = s.host := rfl

@[simp] theorem drawKeyByte_pv (s : State) :
    (drawKeyByte s).pv = s.pv := rfl
@[simp] theorem drawKeyByte_radix (s : State) :
    (drawKeyByte s).radix = s.radix := rfl
@[simp] theorem drawKeyByte_pride (s : State) :
    (drawKeyByte s).pride = s.pride := rfl
@[simp] theorem drawKeyByte_chasm (s : State) :
    (drawKeyByte s).chasm = s.chasm := rfl
@[simp] theorem drawKeyByte_left (s : State) :
    (drawKeyByte s).left = s.left := rfl
@[simp] theorem drawKeyByte_right (s : State) :
    (drawKeyByte s).right = s.right := rfl
@[simp] theorem drawKeyByte_mode (s : State) :
    (drawKeyByte s).mode = s.mode := rfl
@[simp] theorem drawKeyByte_keybuf (s : State) :
    (drawKeyByte s).keybuf = s.keybuf := rfl
@[simp] theorem drawKeyByte_rsp (s : State) :
    (drawKeyByte s).rsp = s.rsp := rfl
@[simp] theorem drawKeyByte_offered (s : State) :
    (drawKeyByte s).offered = s.offered := rfl
@[simp] theorem drawKeyByte_inReset (s : State) :
    (drawKeyByte s).inReset = s.inReset := rfl
@[simp] theorem drawKeyByte_host (s : State) :
    (drawKeyByte s).host = s.host := rfl

@[simp] theorem beginSchedule_pv (s : State) :
    (beginSchedule s).pv = Memory.fill fun k => k := by simp only [beginSchedule]
@[simp] theorem beginSchedule_radix (s : State) :
    (beginSchedule s).radix = s.radix := rfl
@[simp] theorem beginSchedule_pride (s : State) :
    (beginSchedule s).pride = s.pride := rfl
@[simp] theorem beginSchedule_chasm (s : State) :
    (beginSchedule s).chasm = s.chasm := rfl
@[simp] theorem beginSchedule_left (s : State) :
    (beginSchedule s).left = s.left := rfl
@[simp] theorem beginSchedule_right (s : State) :
    (beginSchedule s).right = s.right := rfl
@[simp] theorem beginSchedule_mode (s : State) :
    (beginSchedule s).mode = s.mode := rfl
@[simp] theorem beginSchedule_keybuf (s : State) :
    (beginSchedule s).keybuf = s.keybuf := rfl
@[simp] theorem beginSchedule_transients (s : State) :
    (beginSchedule s).transients = { s.transients with rsum := Config.rsumInit, keypos := Config.keyposInit } := rfl
@[simp] theorem beginSchedule_rsp (s : State) :
    (beginSchedule s).rsp = s.rsp := rfl
@[simp] theorem beginSchedule_offered (s : State) :
    (beginSchedule s).offered = s.offered := rfl
@[simp] theorem beginSchedule_inReset (s : State) :
    (beginSchedule s).inReset = s.inReset := rfl
@[simp] theorem beginSchedule_host (s : State) :
    (beginSchedule s).host = s.host := rfl

@[simp] theorem loadRegisters_pv (s : State) :
    (loadRegisters s).pv = s.pv := rfl
@[simp] theorem loadRegisters_radix (s : State) :
    (loadRegisters s).radix = pvAt s 1 := rfl
@[simp] theorem loadRegisters_pride (s : State) :
    (loadRegisters s).pride = pvAt s 3 := rfl
@[simp] theorem loadRegisters_chasm (s : State) :
    (loadRegisters s).chasm = pvAt s 5 := rfl
@[simp] theorem loadRegisters_left (s : State) :
    (loadRegisters s).left = pvAt s 7 := rfl
@[simp] theorem loadRegisters_right (s : State) :
    (loadRegisters s).right = pvAt s s.transients.rsum := rfl
@[simp] theorem loadRegisters_mode (s : State) :
    (loadRegisters s).mode = .keyed := rfl
@[simp] theorem loadRegisters_keybuf (s : State) :
    (loadRegisters s).keybuf = s.keybuf := rfl
@[simp] theorem loadRegisters_transients (s : State) :
    (loadRegisters s).transients = s.transients := rfl
@[simp] theorem loadRegisters_rsp (s : State) :
    (loadRegisters s).rsp = s.rsp := rfl
@[simp] theorem loadRegisters_offered (s : State) :
    (loadRegisters s).offered = s.offered := rfl
@[simp] theorem loadRegisters_inReset (s : State) :
    (loadRegisters s).inReset = s.inReset := rfl
@[simp] theorem loadRegisters_host (s : State) :
    (loadRegisters s).host = s.host := rfl

@[simp] theorem exchange_radix (s : State) :
    (exchange s).radix = s.radix := rfl
@[simp] theorem exchange_pride (s : State) :
    (exchange s).pride = s.pride := rfl
@[simp] theorem exchange_chasm (s : State) :
    (exchange s).chasm = s.chasm := rfl
@[simp] theorem exchange_left (s : State) :
    (exchange s).left = s.left := rfl
@[simp] theorem exchange_right (s : State) :
    (exchange s).right = s.right := rfl
@[simp] theorem exchange_mode (s : State) :
    (exchange s).mode = s.mode := rfl
@[simp] theorem exchange_keybuf (s : State) :
    (exchange s).keybuf = s.keybuf := rfl
@[simp] theorem exchange_transients (s : State) :
    (exchange s).transients = { s.transients with tmp := pvAt s s.transients.i } := rfl
@[simp] theorem exchange_rsp (s : State) :
    (exchange s).rsp = s.rsp := rfl
@[simp] theorem exchange_offered (s : State) :
    (exchange s).offered = s.offered := rfl
@[simp] theorem exchange_inReset (s : State) :
    (exchange s).inReset = s.inReset := rfl
@[simp] theorem exchange_host (s : State) :
    (exchange s).host = s.host := rfl

@[simp] theorem digestHandle_pv (s : State) :
    (digestHandle s).pv = Memory.fill Config.digestPv := by simp only [digestHandle]
@[simp] theorem digestHandle_radix (s : State) :
    (digestHandle s).radix = Config.digestRadix := rfl
@[simp] theorem digestHandle_pride (s : State) :
    (digestHandle s).pride = Config.digestPride := rfl
@[simp] theorem digestHandle_chasm (s : State) :
    (digestHandle s).chasm = Config.digestChasm := rfl
@[simp] theorem digestHandle_left (s : State) :
    (digestHandle s).left = Config.digestLeft := rfl
@[simp] theorem digestHandle_right (s : State) :
    (digestHandle s).right = Config.digestRight := rfl
@[simp] theorem digestHandle_mode (s : State) :
    (digestHandle s).mode = .digest := rfl
@[simp] theorem digestHandle_keybuf (s : State) :
    (digestHandle s).keybuf = s.keybuf := rfl
@[simp] theorem digestHandle_transients (s : State) :
    (digestHandle s).transients = s.transients := rfl
@[simp] theorem digestHandle_rsp (s : State) :
    (digestHandle s).rsp = s.rsp := rfl
@[simp] theorem digestHandle_offered (s : State) :
    (digestHandle s).offered = s.offered := rfl
@[simp] theorem digestHandle_inReset (s : State) :
    (digestHandle s).inReset = s.inReset := rfl
@[simp] theorem digestHandle_host (s : State) :
    (digestHandle s).host = s.host := rfl

@[simp] theorem indexUpdate_pv (s : State) :
    (indexUpdate s).pv = s.pv := rfl
@[simp] theorem indexUpdate_radix (s : State) :
    (indexUpdate s).radix = s.radix + 1 := rfl
@[simp] theorem indexUpdate_pride (s : State) :
    (indexUpdate s).pride = s.pride + pvAt s s.radix := rfl
@[simp] theorem indexUpdate_chasm (s : State) :
    (indexUpdate s).chasm = s.chasm := rfl
@[simp] theorem indexUpdate_left (s : State) :
    (indexUpdate s).left = s.left := rfl
@[simp] theorem indexUpdate_right (s : State) :
    (indexUpdate s).right = s.right := rfl
@[simp] theorem indexUpdate_mode (s : State) :
    (indexUpdate s).mode = s.mode := rfl
@[simp] theorem indexUpdate_keybuf (s : State) :
    (indexUpdate s).keybuf = s.keybuf := rfl
@[simp] theorem indexUpdate_transients (s : State) :
    (indexUpdate s).transients = s.transients := rfl
@[simp] theorem indexUpdate_rsp (s : State) :
    (indexUpdate s).rsp = s.rsp := rfl
@[simp] theorem indexUpdate_offered (s : State) :
    (indexUpdate s).offered = s.offered := rfl
@[simp] theorem indexUpdate_inReset (s : State) :
    (indexUpdate s).inReset = s.inReset := rfl
@[simp] theorem indexUpdate_host (s : State) :
    (indexUpdate s).host = s.host := rfl

@[simp] theorem fourMoves_radix (s : State) :
    (fourMoves s).radix = s.radix := rfl
@[simp] theorem fourMoves_pride (s : State) :
    (fourMoves s).pride = s.pride := rfl
@[simp] theorem fourMoves_chasm (s : State) :
    (fourMoves s).chasm = s.chasm := rfl
@[simp] theorem fourMoves_left (s : State) :
    (fourMoves s).left = s.left := rfl
@[simp] theorem fourMoves_right (s : State) :
    (fourMoves s).right = s.right := rfl
@[simp] theorem fourMoves_mode (s : State) :
    (fourMoves s).mode = s.mode := rfl
@[simp] theorem fourMoves_keybuf (s : State) :
    (fourMoves s).keybuf = s.keybuf := rfl
@[simp] theorem fourMoves_transients (s : State) :
    (fourMoves s).transients = { s.transients with t := pvAt s s.right } := rfl
@[simp] theorem fourMoves_rsp (s : State) :
    (fourMoves s).rsp = s.rsp := rfl
@[simp] theorem fourMoves_offered (s : State) :
    (fourMoves s).offered = s.offered := rfl
@[simp] theorem fourMoves_inReset (s : State) :
    (fourMoves s).inReset = s.inReset := rfl
@[simp] theorem fourMoves_host (s : State) :
    (fourMoves s).host = s.host := rfl

@[simp] theorem formMix_pv (s : State) :
    (formMix s).pv = s.pv := rfl
@[simp] theorem formMix_radix (s : State) :
    (formMix s).radix = s.radix := rfl
@[simp] theorem formMix_pride (s : State) :
    (formMix s).pride = s.pride := rfl
@[simp] theorem formMix_chasm (s : State) :
    (formMix s).chasm = s.chasm + pvAt s s.transients.t := rfl
@[simp] theorem formMix_left (s : State) :
    (formMix s).left = s.left := rfl
@[simp] theorem formMix_right (s : State) :
    (formMix s).right = s.right := rfl
@[simp] theorem formMix_mode (s : State) :
    (formMix s).mode = s.mode := rfl
@[simp] theorem formMix_keybuf (s : State) :
    (formMix s).keybuf = s.keybuf := rfl
@[simp] theorem formMix_rsp (s : State) :
    (formMix s).rsp = s.rsp := rfl
@[simp] theorem formMix_offered (s : State) :
    (formMix s).offered = s.offered := rfl
@[simp] theorem formMix_inReset (s : State) :
    (formMix s).inReset = s.inReset := rfl
@[simp] theorem formMix_host (s : State) :
    (formMix s).host = s.host := rfl

@[simp] theorem transform_pv (s : State) :
    (transform s).pv = (fourMoves (indexUpdate s)).pv := rfl
@[simp] theorem transform_radix (s : State) :
    (transform s).radix = s.radix + 1 := rfl
@[simp] theorem transform_pride (s : State) :
    (transform s).pride = s.pride + pvAt s s.radix := rfl
@[simp] theorem transform_left (s : State) :
    (transform s).left = s.left := rfl
@[simp] theorem transform_right (s : State) :
    (transform s).right = s.right := rfl
@[simp] theorem transform_mode (s : State) :
    (transform s).mode = s.mode := rfl
@[simp] theorem transform_keybuf (s : State) :
    (transform s).keybuf = s.keybuf := rfl
@[simp] theorem transform_rsp (s : State) :
    (transform s).rsp = s.rsp := rfl
@[simp] theorem transform_offered (s : State) :
    (transform s).offered = s.offered := rfl
@[simp] theorem transform_inReset (s : State) :
    (transform s).inReset = s.inReset := rfl
@[simp] theorem transform_host (s : State) :
    (transform s).host = s.host := rfl

@[simp] theorem encbBody_pv (byte : Byte) (s : State) :
    (encbBody byte s).pv = (transform s).pv := rfl
@[simp] theorem encbBody_radix (byte : Byte) (s : State) :
    (encbBody byte s).radix = (transform s).radix := rfl
@[simp] theorem encbBody_pride (byte : Byte) (s : State) :
    (encbBody byte s).pride = (transform s).pride := rfl
@[simp] theorem encbBody_chasm (byte : Byte) (s : State) :
    (encbBody byte s).chasm = (transform s).chasm := rfl
@[simp] theorem encbBody_left (byte : Byte) (s : State) :
    (encbBody byte s).left = byte := rfl
@[simp] theorem encbBody_right (byte : Byte) (s : State) :
    (encbBody byte s).right = byte ^^^ (transform s).transients.mix := rfl
@[simp] theorem encbBody_mode (byte : Byte) (s : State) :
    (encbBody byte s).mode = s.mode := rfl
@[simp] theorem encbBody_keybuf (byte : Byte) (s : State) :
    (encbBody byte s).keybuf = s.keybuf := rfl
@[simp] theorem encbBody_transients (byte : Byte) (s : State) :
    (encbBody byte s).transients = (transform s).transients := rfl
@[simp] theorem encbBody_rsp (byte : Byte) (s : State) :
    (encbBody byte s).rsp = s.rsp := rfl
@[simp] theorem encbBody_offered (byte : Byte) (s : State) :
    (encbBody byte s).offered = s.offered := rfl
@[simp] theorem encbBody_inReset (byte : Byte) (s : State) :
    (encbBody byte s).inReset = s.inReset := rfl
@[simp] theorem encbBody_host (byte : Byte) (s : State) :
    (encbBody byte s).host = s.host := rfl

@[simp] theorem decbBody_pv (byte : Byte) (s : State) :
    (decbBody byte s).pv = (transform s).pv := rfl
@[simp] theorem decbBody_radix (byte : Byte) (s : State) :
    (decbBody byte s).radix = (transform s).radix := rfl
@[simp] theorem decbBody_pride (byte : Byte) (s : State) :
    (decbBody byte s).pride = (transform s).pride := rfl
@[simp] theorem decbBody_chasm (byte : Byte) (s : State) :
    (decbBody byte s).chasm = (transform s).chasm := rfl
@[simp] theorem decbBody_left (byte : Byte) (s : State) :
    (decbBody byte s).left = byte ^^^ (transform s).transients.mix := rfl
@[simp] theorem decbBody_right (byte : Byte) (s : State) :
    (decbBody byte s).right = byte := rfl
@[simp] theorem decbBody_mode (byte : Byte) (s : State) :
    (decbBody byte s).mode = s.mode := rfl
@[simp] theorem decbBody_keybuf (byte : Byte) (s : State) :
    (decbBody byte s).keybuf = s.keybuf := rfl
@[simp] theorem decbBody_transients (byte : Byte) (s : State) :
    (decbBody byte s).transients = (transform s).transients := rfl
@[simp] theorem decbBody_rsp (byte : Byte) (s : State) :
    (decbBody byte s).rsp = s.rsp := rfl
@[simp] theorem decbBody_offered (byte : Byte) (s : State) :
    (decbBody byte s).offered = s.offered := rfl
@[simp] theorem decbBody_inReset (byte : Byte) (s : State) :
    (decbBody byte s).inReset = s.inReset := rfl
@[simp] theorem decbBody_host (byte : Byte) (s : State) :
    (decbBody byte s).host = s.host := rfl

/-! ## Operations that branch or loop: the fields they leave alone -/

/-- Two states that agree outside PV and the transients: all an operation of the key schedule's shuffle can keep (R66). -/
structure SameButPv (s t : State) : Prop where
  radix : t.radix = s.radix
  pride : t.pride = s.pride
  chasm : t.chasm = s.chasm
  left : t.left = s.left
  right : t.right = s.right
  mode : t.mode = s.mode
  keybuf : t.keybuf = s.keybuf
  rsp : t.rsp = s.rsp
  offered : t.offered = s.offered
  inReset : t.inReset = s.inReset
  host : t.host = s.host

theorem SameButPv.refl (s : State) : SameButPv s s := ⟨rfl, rfl, rfl, rfl, rfl, rfl, rfl, rfl, rfl, rfl, rfl⟩

theorem SameButPv.trans {s t u : State} (h : SameButPv s t) (k : SameButPv t u) : SameButPv s u :=
  ⟨k.radix.trans h.radix, k.pride.trans h.pride, k.chasm.trans h.chasm, k.left.trans h.left, k.right.trans h.right,
    k.mode.trans h.mode, k.keybuf.trans h.keybuf, k.rsp.trans h.rsp, k.offered.trans h.offered,
    k.inReset.trans h.inReset, k.host.trans h.host⟩

/-- Two states that agree outside the handle and the transients: all a transform step can keep (R80, R81, R95). -/
structure SameButHandle (s t : State) : Prop where
  mode : t.mode = s.mode
  keybuf : t.keybuf = s.keybuf
  rsp : t.rsp = s.rsp
  offered : t.offered = s.offered
  inReset : t.inReset = s.inReset
  host : t.host = s.host

theorem SameButHandle.trans {s t u : State} (h : SameButHandle s t) (k : SameButHandle t u) : SameButHandle s u :=
  ⟨k.mode.trans h.mode, k.keybuf.trans h.keybuf, k.rsp.trans h.rsp, k.offered.trans h.offered,
    k.inReset.trans h.inReset, k.host.trans h.host⟩

/-- Transients play no part on the left. -/
theorem SameButHandle.of_transients {s t : State} {x : Transients} (h : SameButHandle { s with transients := x } t) :
    SameButHandle s t := ⟨h.mode, h.keybuf, h.rsp, h.offered, h.inReset, h.host⟩

/-- Transients play no part on the right. -/
theorem SameButHandle.to_transients {s t : State} (x : Transients) (h : SameButHandle s t) :
    SameButHandle s { t with transients := x } := ⟨h.mode, h.keybuf, h.rsp, h.offered, h.inReset, h.host⟩

/-- The wraparound of a draw writes only the transients keypos and rsum. -/
theorem wrapKey_cases (len : BitVec 16) (s : State) :
    (s.transients.keypos.toNat = len.toNat ∧
      wrapKey len s =
        { s with transients := { s.transients with keypos := 0, rsum := s.transients.rsum + len.setWidth 8 } }) ∨
    (s.transients.keypos.toNat ≠ len.toNat ∧ wrapKey len s = s) := by
  unfold wrapKey
  split
  · exact .inl ⟨‹_›, rfl⟩
  · exact .inr ⟨‹_›, rfl⟩

/-- A draw writes only transients. -/
theorem draw_eq (len : BitVec 16) (s : State) : draw len s = { s with transients := (draw len s).transients } := by
  obtain ⟨_, h⟩ | ⟨_, h⟩ := wrapKey_cases len (drawKeyByte s) <;> simp only [draw, h] <;> rfl

/-- A draw keeps the limit's mask and the count of rejections. -/
theorem draw_mask_rej (len : BitVec 16) (s : State) :
    (draw len s).transients.mask = s.transients.mask ∧ (draw len s).transients.rej = s.transients.rej ∧
      (draw len s).transients.i = s.transients.i := by
  obtain ⟨_, h⟩ | ⟨_, h⟩ := wrapKey_cases len (drawKeyByte s) <;> simp only [draw, h] <;> exact ⟨rfl, rfl, rfl⟩

/-- The candidate of a draw is masked (R69). -/
theorem draw_u (len : BitVec 16) (s : State) :
    (draw len s).transients.u = s.transients.mask &&& (draw len s).transients.rsum := by
  obtain ⟨_, h⟩ | ⟨_, h⟩ := wrapKey_cases len (drawKeyByte s) <;> simp only [draw, h] <;> rfl

/-- The attempts of a keyrand call write only transients. -/
theorem attempts_eq (len : BitVec 16) (limit : Byte) (k : Nat) (s : State) :
    attempts len limit k s = { s with transients := (attempts len limit k s).transients } := by
  induction k generalizing s with
  | zero => rw [attempts, draw_eq]
  | succ k ih =>
    rw [attempts]
    dsimp only
    split
    · rw [draw_eq]
    · rw [ih, draw_eq]

/-- A keyrand call writes only transients (R71). -/
theorem keyrand_eq (len : BitVec 16) (limit : Byte) (s : State) :
    keyrand len limit s = { s with transients := (keyrand len limit s).transients } := by
  unfold keyrand
  rw [attempts_eq]

/-- The attempts keep the shuffle position. -/
theorem attempts_i (len : BitVec 16) (limit : Byte) (k : Nat) (s : State) :
    (attempts len limit k s).transients.i = s.transients.i := by
  induction k generalizing s with
  | zero => exact (draw_mask_rej len s).2.2
  | succ k ih =>
    rw [attempts]
    dsimp only
    split
    · exact (draw_mask_rej len s).2.2
    · rw [ih]
      exact (draw_mask_rej len s).2.2

/-- A keyrand call keeps the shuffle position. -/
theorem keyrand_i (len : BitVec 16) (limit : Byte) (s : State) :
    (keyrand len limit s).transients.i = s.transients.i := attempts_i len limit _ _

/-- All that one position of the shuffle does (R67): an exchange in PV, and transients. -/
theorem shufflePosition_spec (len : BitVec 16) (i : Byte) (s : State) :
    SameButPv s (shufflePosition len i s) ∧
      (shufflePosition len i s).pv =
        (let j := (keyrand len i { s with transients.i := i }).transients.toswap
         Memory.write (Memory.write s.pv i (Memory.read s.pv j)) j (Memory.read s.pv i)) := by
  have h := keyrand_eq len i { s with transients.i := i }
  have hi := keyrand_i len i { s with transients.i := i }
  unfold shufflePosition
  constructor
  · rw [h]
    exact ⟨rfl, rfl, rfl, rfl, rfl, rfl, rfl, rfl, rfl, rfl, rfl⟩
  · rw [h] at hi ⊢
    simp only [exchange, setPv, pvAt] at hi ⊢
    rw [hi]

/-- The shuffle writes only PV and transients (R67). -/
theorem shuffle_frame (len : BitVec 16) (k : Nat) (s : State) : SameButPv s (shuffle len k s) := by
  induction k generalizing s with
  | zero => exact .refl s
  | succ k ih => exact (shufflePosition_spec len _ s).1.trans (ih _)

/-- The whole key schedule writes the handle, MODE and transients, and nothing else (R29, R66). -/
theorem keySchedule_frame (len : BitVec 16) (s : State) :
    (keySchedule len s).mode = .keyed ∧ (keySchedule len s).keybuf = s.keybuf ∧ (keySchedule len s).rsp = s.rsp ∧
      (keySchedule len s).offered = s.offered ∧ (keySchedule len s).inReset = s.inReset ∧
      (keySchedule len s).host = s.host := by
  have h := shuffle_frame len Config.pvSize (beginSchedule s)
  exact ⟨rfl, h.keybuf, h.rsp, h.offered, h.inReset, h.host⟩

/-- ENCB-body writes the handle and transients, and nothing else (R80, R95). -/
theorem encbBody_frame (byte : Byte) (s : State) : SameButHandle s (encbBody byte s) := ⟨rfl, rfl, rfl, rfl, rfl, rfl⟩

/-- The whitening pass writes the handle and transients, and nothing else (R95). -/
theorem whiten_frame (k : Nat) (s : State) : SameButHandle s (whiten k s) := by
  induction k generalizing s with
  | zero => exact ⟨rfl, rfl, rfl, rfl, rfl, rfl⟩
  | succ k ih => exact ((encbBody_frame _ _).trans (ih _)).of_transients

/-- The squeeze writes the handle and transients, and nothing else; it emits as many bytes as it takes steps (R95). -/
theorem squeeze_frame (k : Nat) (s : State) : SameButHandle s (squeeze k s).1 ∧ (squeeze k s).2.length = k := by
  induction k generalizing s with
  | zero => exact ⟨⟨rfl, rfl, rfl, rfl, rfl, rfl⟩, rfl⟩
  | succ k ih =>
    let s' := encbBody Config.squeezeByte { s with transients.n := s.transients.n + 1 }
    exact ⟨((encbBody_frame _ _).trans (ih s').1).of_transients, congrArg (· + 1) (ih s').2⟩

/-- FINAL's work writes the handle and transients, and emits `len` bytes (R95). -/
theorem finalBody_frame (len : BitVec 16) (s : State) :
    SameButHandle s (finalBody len s).1 ∧ (finalBody len s).2.length = len.toNat := by
  unfold finalBody
  exact ⟨((whiten_frame _ s).to_transients _).trans (squeeze_frame _ _).1, (squeeze_frame _ _).2⟩

/-- A command of the session family either raises NoSession in IDLE or runs (R108). -/
theorem inSession_cases (s : State) (k : State → State) :
    (s.mode = .idle ∧ inSession s k = raise .noSession s) ∨ (s.mode ≠ .idle ∧ inSession s k = k s) := by
  unfold inSession
  split
  · exact .inl ⟨‹_›, rfl⟩
  · exact .inr ⟨‹_›, rfl⟩

/-- All that one step can do: run the accepted word, or let the host act (log entry 1). -/
theorem step_cases (s : State) :
    (∃ w, fetch s = some w ∧ step s = execWord w (consume s)) ∨ (fetch s = none ∧ step s = hostTurn s) := by
  unfold step
  cases h : fetch s with
  | some w => exact .inl ⟨w, rfl, rfl⟩
  | none => exact .inr ⟨rfl, rfl⟩

/-- A word is accepted exactly when it is offered to an engine with no response pending and `rst` low (R45, R128). -/
theorem fetch_eq_some {s : State} {w : CmdWord} :
    fetch s = some w ↔ s.rsp = [] ∧ s.inReset = false ∧ s.offered = some w := by
  unfold fetch cmdReady
  cases s.rsp <;> cases s.inReset <;> simp

/-- All that an action of the host can do (R127). -/
theorem hostAct_cases (act : HostAct) (s : State) :
    (∃ w, act = .raiseCmd w ∧ s.offered = none ∧ hostAct act s = .next { s with offered := some w }) ∨
    (∃ w, act = .raiseCmd w ∧ s.offered = some w ∧ hostAct act s = .next s) ∨
    (∃ w v, act = .raiseCmd w ∧ s.offered = some v ∧ v ≠ w ∧ hostAct act s = .refused .cmdDataChanged) ∨
    (act = .dropCmd ∧ hostAct act s = .next { s with offered := none }) ∨
    (act = .takeRsp ∧ hostAct act s = .next { s with rsp := s.rsp.tail }) ∨
    (act = .assertRst ∧ hostAct act s = .next (assertReset s)) ∨
    (act = .releaseRst ∧ hostAct act s = .next (releaseReset s)) := by
  cases act with
  | raiseCmd w =>
    unfold hostAct
    cases h : s.offered with
    | none => exact .inl ⟨w, rfl, rfl, rfl⟩
    | some v =>
      by_cases hv : v = w
      · exact .inr (.inl ⟨w, rfl, congrArg some hv, if_pos hv⟩)
      · exact .inr (.inr (.inl ⟨w, v, rfl, rfl, hv, if_neg hv⟩))
  | dropCmd => exact .inr (.inr (.inr (.inl ⟨rfl, rfl⟩)))
  | takeRsp => exact .inr (.inr (.inr (.inr (.inl ⟨rfl, rfl⟩))))
  | assertRst => exact .inr (.inr (.inr (.inr (.inr (.inl ⟨rfl, rfl⟩)))))
  | releaseRst => exact .inr (.inr (.inr (.inr (.inr (.inr ⟨rfl, rfl⟩)))))

/-- A run goes on from the next state of its first step. -/
theorem run_succ_of_next {s t : State} (n : Nat) (h : step s = .next t) : core.run (n + 1) s = core.run n t := by
  have h' : core.step s = .next t := h
  exact (Host.Core.run.eq_2 core s n).trans (by rw [h'])

/-- A run that answers a next state made a first step that did. -/
theorem run_succ_inv {s t : State} (n : Nat) (h : core.run (n + 1) s = .next t) :
    ∃ u, step s = .next u ∧ core.run n u = .next t := by
  have h' := (Host.Core.run.eq_2 core s n).symm.trans h
  split at h'
  · exact ⟨_, ‹_›, h'⟩
  · cases h'
  · cases h'

/-! ## Sequences of commands -/

theorem execAll_nil (s : State) : execAll [] s = .next (s, []) := rfl

/-- A sequence goes on from the first command's next state, its response taken. -/
theorem execAll_cons {i : Instr} {is : List Instr} {s t u : State} {ws : List RspWord} (h : exec i s = .next t)
    (k : execAll is { t with rsp := [] } = .next (u, ws)) : execAll (i :: is) s = .next (u, t.rsp ++ ws) := by
  simp only [execAll, h, k]

/-- Two sequences one after the other are one sequence (R91). -/
theorem execAll_append {is js : List Instr} {s t u : State} {ws vs : List RspWord} (h : execAll is s = .next (t, ws))
    (k : execAll js t = .next (u, vs)) : execAll (is ++ js) s = .next (u, ws ++ vs) := by
  induction is generalizing s ws with
  | nil =>
    cases h
    exact k
  | cons i is ih =>
    simp only [execAll] at h
    split at h
    · rename_i s' hi
      split at h
      · rename_i r hr
        cases h
        rw [List.cons_append, execAll_cons hi (ih hr), List.append_assoc]
      · cases h
      · cases h
    · cases h
    · cases h

/-! ## Responses -/

/-- One word for each output byte (R53). -/
theorem dataWords_length (m : Mode) (bs : List Byte) : (dataWords m bs).length = bs.length := by
  fun_induction dataWords m bs with
  | case1 => rfl
  | case2 => rfl
  | case3 b b' bs ih => simp only [List.length_cons, ih]

/-- Every command gives at least one word, and as many as it has output bytes if it has any (R53). -/
theorem responseWords_length (e : ErrCode) (m : Mode) (bs : List Byte) :
    (responseWords e m bs).length = max 1 bs.length := by
  cases bs with
  | nil => rfl
  | cons b bs =>
    simp only [responseWords, dataWords_length, List.length_cons]
    omega

end Sys2Proof.Machine
end

