-- ==== Sys2Proof/Laws/Trace.lean ====
section
/-! SUPPORT. What the traces hold: counts and replay over joined traces, the counts of a fill and of one transform step, and how
many transform steps the loops of FINAL begin (20_memory R44; 70_reset R134). -/

namespace Sys2Proof.Machine

@[simp] theorem countReads_nil (space : Space) : countReads space [] = 0 := rfl
@[simp] theorem countWrites_nil (space : Space) : countWrites space [] = 0 := rfl

@[simp] theorem countReads_append (space : Space) (l l' : List Access) :
    countReads space (l ++ l') = countReads space l + countReads space l' := List.countP_append

@[simp] theorem countWrites_append (space : Space) (l l' : List Access) :
    countWrites space (l ++ l') = countWrites space l + countWrites space l' := List.countP_append

/-- A joined trace is carried out part after part. -/
theorem replay_append (l l' : List Access) (m : Memory × Memory) :
    replay (l ++ l') m = (replay l m).bind (replay l') := by
  induction l generalizing m with
  | nil => rfl
  | cons a l ih =>
    rcases a with ⟨sp, i, v⟩ | ⟨sp, i, v⟩ <;> cases sp <;> simp only [List.cons_append, replay]
    · split
      · exact ih _
      · rfl
    · split
      · exact ih _
      · rfl
    · exact ih _
    · exact ih _

/-- A fill reads nothing. -/
@[simp] theorem countReads_fillTrace (space space' : Space) (f : Byte → Byte) :
    countReads space (fillTrace space' f) = 0 := by
  simp [countReads, fillTrace, List.countP_map, List.countP_eq_zero, Access.readsSpace]

/-- A fill writes its own memory 256 times and the other not at all. -/
@[simp] theorem countWrites_fillTrace (space space' : Space) (f : Byte → Byte) :
    countWrites space (fillTrace space' f) = if space' = space then 256 else 0 := by
  cases space <;> cases space' <;>
    simp [countWrites, fillTrace, List.countP_map, Function.comp_def, Access.writesSpace, List.countP_true, List.countP_false]

/-- Fourteen reads and four writes of PV, no access to KEYBUF (R44). -/
theorem transformTrace_counts (s : State) :
    countReads .pv (transformTrace s) = 14 ∧ countWrites .pv (transformTrace s) = 4 ∧
      countReads .keybuf (transformTrace s) = 0 ∧ countWrites .keybuf (transformTrace s) = 0 := ⟨rfl, rfl, rfl, rfl⟩

@[simp] theorem whitenStarts_length (k : Nat) (s : State) : (whitenStarts k s).length = k := by
  induction k generalizing s with
  | zero => rfl
  | succ k ih => exact congrArg (· + 1) (ih _)

@[simp] theorem squeezeStarts_length (k : Nat) (s : State) : (squeezeStarts k s).length = k := by
  induction k generalizing s with
  | zero => rfl
  | succ k ih => exact congrArg (· + 1) (ih _)

/-- All that the engine does to its memories in one step: the accesses of the accepted word, of the reset sequence, or none. -/
theorem stepTrace_cases (s : State) :
    (∃ w, fetch s = some w ∧ stepTrace s = wordTrace w (consume s)) ∨
    (fetch s = none ∧ (∃ rest, s.host = .releaseRst :: rest) ∧ s.inReset = true ∧ stepTrace s = zeroiseTrace) ∨
    (fetch s = none ∧ ¬ (s.inReset = true ∧ s.host.head? = some .releaseRst) ∧ stepTrace s = []) := by
  unfold stepTrace
  cases fetch s with
  | some w => exact .inl ⟨w, rfl, rfl⟩
  | none =>
    cases s.host with
    | nil => exact .inr (.inr ⟨rfl, by simp, rfl⟩)
    | cons act rest => cases act <;> cases h : s.inReset <;> simp [hostActTrace]

end Sys2Proof.Machine
end

