-- ==== Sys2Proof/Tests/Slice0.lean ====
section
/-! SUPPORT. The model's own tests. Expected values come from 95_test_vectors and from the rules named beside them; words are
written out from the formats of 30_encoding R46. The second half gives, for each statement with hypotheses, values that meet
them. -/

namespace Sys2Proof.Tests

open Sys2Proof.Machine

/-! ## Helpers -/

/-- The next state, or the state itself where there is none. -/
def after (o : Host.Outcome State Fault Refusal) (s : State) : State :=
  match o with
  | .next t => t
  | .fault _ => s
  | .refused _ => s

/-- A command on a state. -/
def run (i : Instr) (s : State) : State := after (exec i s) s

/-- radix, pride, chasm, left, right. -/
def regs (s : State) : List Byte := [s.radix, s.pride, s.chasm, s.left, s.right]

/-- The identity permutation. -/
def idPv : Memory := Memory.fill fun k => k

/-- PV the identity, MODE KEYED, registers as given: the states of V-T3 to V-T8. -/
def idState (radix pride chasm left right : Byte) : State :=
  { State.reset with pv := idPv, radix := radix, pride := pride, chasm := chasm, left := left, right := right, mode := .keyed }

/-- A state whose next four indices are right, pride, left, radix. -/
def moveState (right pride left radix : Byte) : State := idState radix pride 0 left right

/-- KEYBUF holding the key "password". -/
def passwordState : State :=
  { State.reset with
    keybuf := [(0, 0x70), (1, 0x61), (2, 0x73), (3, 0x73), (4, 0x77), (5, 0x6F), (6, 0x72), (7, 0x64)] }

/-- The entries among the given ones that differ from the identity, as (index, byte). -/
def changes (m : Memory) (among : List Byte) : List (Byte × Byte) :=
  (among.map fun k => (k, Memory.read m k)).filter fun p => p.2 != p.1

/-! ## WellFormed and the decoder -/

/-- R48, R49: 256 is the longest key; the word for 257 is refused. -/
theorem test_wellformed_initk : (Instr.initk 256).wellFormed = true ∧ (Instr.initk 257).wellFormed = false := by decide

/-- R56: KEY takes 1 to 256 bytes. -/
theorem test_wellformed_key : (Pseudo.key []).wellFormed = false ∧ (Pseudo.key [0]).wellFormed = true ∧
    (Pseudo.key (List.replicate 257 0)).wellFormed = false := by decide +kernel

theorem test_decode_ldk : decode 0b00000001000000000000011101100100 = .ok (.ldk 7 0x64) := by decide
theorem test_decode_initk : decode 0b00000010000000000000000100000000 = .ok (.initk 256) := by decide
theorem test_decode_initd : decode 0b00000011000000000000000000000000 = .ok .initd := by decide
theorem test_decode_encb : decode 0b00000100000000000000000001001000 = .ok (.encb 0x48) := by decide
theorem test_decode_decb : decode 0b00000101000000000000000011011010 = .ok (.decb 0xDA) := by decide
theorem test_decode_final : decode 0b00000110000000001111111111111111 = .ok (.final 65535) := by decide
theorem test_decode_scrub : decode 0b00000111000000000000000000000000 = .ok .scrub := by decide
theorem test_decode_stat : decode 0b00001000000000000000000000000000 = .ok .stat := by decide

/-- V-E2: words that do not decode. -/
theorem test_decode_illegal :
    [0x00000000, 0xFFFFFFFF, 0x09000000, 0x01010000, 0x02000101, 0x0200FFFF, 0x02010008, 0x03000001, 0x04000141, 0x05800000,
      0x06010020, 0x07000001, 0x08008000, 0x48000000].all (fun w => (decode (BitVec.ofNat 32 w)).toOption.isNone) = true := by
  decide

/-- V-E1: the words of each command. -/
theorem test_encode_words :
    [encode (.ldk 255 0xFF), encode (.initk 8), encode .initd, encode (.encb 0x48), encode (.decb 0xDA), encode (.final 32),
      encode .scrub, encode .stat] =
    [0x0100FFFF, 0x02000008, 0x03000000, 0x04000048, 0x050000DA, 0x06000020, 0x07000000, 0x08000000] := by decide

/-- R55, R56: lines of text. -/
theorem test_assemble_text :
    assemble [' ', 'L', 'D', 'K', ' ', '7', ',', ' ', '0', 'x', '6', '4', ' ', ';', 'k'] = some [0x01000764] ∧
    assemble ['K', 'E', 'Y', ' ', '"', 'a', 'b', '"'] = some [0x01000061, 0x01000162, 0x02000002] ∧
    assemble ['E', 'N', 'C', 'B', ' ', '2', '5', '6'] = none ∧ assemble ['E', 'N', 'C', 'S'] = some [] := by decide +kernel

/-! ## Meanings -/

/-- R63: one entry of KEYBUF, response 0x0200 in IDLE. -/
theorem test_ldk : (run (.ldk 255 0xFF) passwordState).keybuf = passwordState.keybuf ++ [(255, 0xFF)] ∧
    (run (.ldk 0 0) passwordState).rsp = [0x0200] := by decide

/-- V-K9, R111: InvalidKey, and IllegalCommand for a length no word can carry. -/
theorem test_initk_errors : (run (.initk 0) State.reset).rsp = [0x1200] ∧ (run (.initk 257) State.reset).rsp = [0x2200] := by
  decide

/-- R77, V-D0. -/
theorem test_initd : regs (run .initd State.reset) = [1, 3, 5, 7, 11] ∧ (run .initd State.reset).rsp = [0x0A00] ∧
    pvAt (run .initd State.reset) 1 = 254 ∧ pvAt (run .initd State.reset) 244 = 11 := by decide +kernel

/-- V-T3: radix wraps; V-T2: the first step of a digest session. -/
theorem test_encb : regs (run (.encb 0) (idState 0xFF 0x10 0x20 0x30 0x40)) = [0x00, 0x0F, 0x2F, 0x00, 0x4E] ∧
    (run (.encb 0xFF) (run .initd State.reset)).rsp = [0x0B06] := by decide +kernel

/-- V-T7d: left gets the output and right the input. -/
theorem test_decb : regs (run (.decb 0x77) (idState 0x10 0x20 0x30 0x40 0x50)) = [0x11, 0x30, 0x60, 0x46, 0x77] ∧
    (run (.decb 0x77) (idState 0x10 0x20 0x30 0x40 0x50)).rsp = [0x0746] := by decide +kernel

/-- R108: NoSession in IDLE. -/
theorem test_no_session : [Instr.encb 0x41, .decb 0x41, .final 4].map (fun i => (run i State.reset).rsp) =
    [[0x3200], [0x3200], [0x3200]] := by decide

/-- V-K8: the keystream after the one-byte key FE, as the squeeze delivers it. -/
theorem test_squeeze : (squeeze 4 (idState 1 3 5 7 0)).2 = [0x0D, 0x0B, 0x38, 0x62] := by decide +kernel

/-- V-S1. -/
theorem test_scrub : run .scrub passwordState = { State.reset with rsp := [0x0200] } := by decide

/-- V-S1. -/
theorem test_stat : run .stat (idState 1 2 3 4 5) = { idState 1 2 3 4 5 with rsp := [0x0600] } := by decide +kernel

/-- V-E3. -/
theorem test_response_words : responseWords .ok .digest [0xC1, 0x1F] = [0x09C1, 0x0B1F] ∧
    responseWords .ok .keyed [0xDA] = [0x07DA] ∧ responseWords .invalidKey .digest [] = [0x1A00] ∧
    responseWords .illegalCommand .keyed [] = [0x2600] := by decide

/-- R44: fourteen reads and four writes. -/
theorem test_transform_trace : countReads .pv (transformTrace (idState 1 3 5 7 0)) = 14 ∧
    countWrites .pv (transformTrace (idState 1 3 5 7 0)) = 4 := by decide +kernel

/-- R134: ENCB runs one transform step, none in IDLE; releasing `rst` writes all 512 entries. -/
theorem test_work : transformSteps (.encb 0) (idState 1 3 5 7 0) = 1 ∧ transformSteps (.encb 0) State.reset = 0 ∧
    (stepTrace { passwordState with inReset := true, host := [.releaseRst] }).length = 512 := by decide +kernel

/-- P4: an illegal word at the port, and the host taking the response. -/
theorem test_illegal_word_step : (after (step (State.reset.withFetchWord 32 0x09000000)) State.reset).rsp = [0x2200] ∧
    core.run 3 { State.reset with host := [.raiseCmd 0x08000000, .takeRsp] } matches .next _ := by decide

/-- R121: reset in the middle of a response. -/
theorem test_reset_drops_response :
    after (step { passwordState with rsp := [0x0200], host := [.assertRst] }) State.reset =
      { passwordState with inReset := true } := by decide

/-! ## Values that meet the hypotheses of the statements -/

/-- DecodeInvertsEncode, EncodeInvertsDecode. -/
theorem test_meets_roundtrip : (Instr.initk 256).wellFormed = true ∧ decode 0x02000100 = .ok (.initk 256) := by decide

/-- IllegalWordsAreTheseAndChangeNothing, EveryCommandAnswersOneResponse, ErrorsChangeNothing: each cause at its boundary, and
the legal neighbour of each. -/
theorem test_meets_illegal :
    decode 0x00000000 = .error .unusedOpcode ∧ decode 0x09000000 = .error .unusedOpcode ∧
    decode 0x01010000 = .error .reservedBits ∧ decode 0x03000001 = .error .reservedBits ∧
    decode 0x04000100 = .error .reservedBits ∧ decode 0x02000101 = .error .keyTooLong ∧
    decode 0x02000100 = .ok (.initk 256) ∧ decode 0x08000000 = .ok .stat ∧ decode 0x040000FF = .ok (.encb 0xFF) := by decide

/-- The same words by their fields, as IllegalWordRaisesIllegalCommand takes them; and a command the no-operation clause speaks
of. -/
theorem test_meets_illegal_fields :
    (Spec.illegal 0x00000000 ∧ Spec.illegal 0x09000000 ∧ Spec.illegal 0x01010000 ∧ Spec.illegal 0x03000001 ∧
      Spec.illegal 0x04000100 ∧ Spec.illegal 0x02000101) ∧
    (¬ Spec.illegal 0x02000100 ∧ ¬ Spec.illegal 0x08000000 ∧ ¬ Spec.illegal 0x040000FF) ∧
    (Instr.initk 1).wellFormed = true ∧ Instr.initk 1 ≠ .stat ∧ Instr.initk 1 ≠ .initk 0 := by
  refine ⟨⟨?_, ?_, ?_, ?_, ?_, ?_⟩, ⟨?_, ?_, ?_⟩, rfl, ?_, ?_⟩ <;> first | decide | (unfold Spec.illegal; decide)

/-- AssemblerGivesTheSumOrRejects: the largest operands that fit and the smallest that do not. -/
theorem test_meets_assembler :
    assembleLine ⟨.ldk, [255, 255]⟩ = some [0x0100FFFF] ∧ assembleLine ⟨.ldk, [256, 0]⟩ = none ∧
    assembleLine ⟨.initk, [256]⟩ = some [0x02000100] ∧ assembleLine ⟨.initk, [257]⟩ = none ∧
    assembleLine ⟨.final, [65535]⟩ = some [0x0600FFFF] ∧ assembleLine ⟨.stat, []⟩ = some [0x08000000] := by decide

/-- AssemblerMakesLegalWordsOnly: a line and a text that are assembled; a `;` in quotes is a byte (log entry 15). -/
theorem test_meets_legal_lines : assembleLine ⟨.key, [0]⟩ = some [0x01000000, 0x02000001] ∧
    assemble ['E', 'N', 'C', 'S', ' ', '"', ';', '"', ' ', ';', 'x'] = some [0x0400003B] := by decide +kernel

/-- LdkStoresOneKeyByte: another index. -/
theorem test_meets_ldk : (1 : Byte) ≠ 0 := by decide

/-- InitkComputesTheKeySchedule at both ends of its range. -/
theorem test_meets_initk : 1 ≤ (1 : BitVec 16).toNat ∧ (1 : BitVec 16).toNat ≤ 256 ∧
    1 ≤ (256 : BitVec 16).toNat ∧ (256 : BitVec 16).toNat ≤ 256 := by decide

/-- InitkPermutesAndDependsOnKeyOnly: two different states that agree on the one key byte used. -/
theorem test_meets_initk_key : 1 ≤ (1 : BitVec 16).toNat ∧ (1 : BitVec 16).toNat ≤ 256 ∧
    (∀ k : Byte, k.toNat < (1 : BitVec 16).toNat →
      Memory.read ({ State.reset with keybuf := [(5, 1)] } : State).keybuf k = Memory.read State.reset.keybuf k) := by
  refine ⟨by decide, by decide, fun k hk => ?_⟩
  have : k.toNat ≠ 5 := by simp at hk; omega
  simp [Memory.read, State.reset, this]

/-- MaskIsSmallestAboveLimit: a limit of at least 1, and an n at the edge. -/
theorem test_meets_mask : 1 ≤ (128 : Byte).toNat ∧ (128 : Byte).toNat ≤ 2 ^ 8 - 1 := by decide

/-- KeyrandStaysBelowItsLimit: limits that are their own masks, and an index just above the shuffle. -/
theorem test_meets_keyrand : maskFor 0 = 0 ∧ maskFor 255 = 255 ∧ 255 ≤ (255 : Byte).toNat := by decide

/-- A state in a session and one in IDLE: EncbRunsTheTransform, DecbRunsTheTransform, FinalWhitensAndSqueezes,
MixDoesNotReadTheInput, FinalIsAnEncbSequence. -/
theorem test_meets_session : (idState 1 3 5 7 0).mode ≠ .idle ∧ State.reset.mode = .idle := by decide

/-- The identity is a bijection. -/
theorem test_meets_permutation : isPermutation idPv := by
  have h : Memory.read idPv = id := funext fun a => Memory.read_fill _ a
  rw [isPermutation, h]
  exact Function.bijective_id

/-- PeerRecoversEveryByte, whose keys are those of test_meets_key: two engines with one handle, one KEYED and one DIGEST. -/
theorem test_meets_peer :
    Spec.sameHandle (idState 1 3 5 7 0) { idState 1 3 5 7 0 with mode := .digest } ∧ (idState 1 3 5 7 0).mode ≠ .idle ∧
      ({ idState 1 3 5 7 0 with mode := .digest } : State).mode ≠ .idle :=
  ⟨⟨rfl, rfl, rfl, rfl, rfl, rfl⟩, by decide, by decide⟩

/-- FinalIsAnEncbSequence: lengths at the edges. -/
theorem test_meets_final : (0 : BitVec 16).toNat ≤ (65535 : BitVec 16).toNat ∧
    (65535 : BitVec 16).toNat + (0 : BitVec 16).toNat < 65536 := by decide

/-- ErrorsChangeNothing: a command that errs, and an illegal word. -/
theorem test_meets_errors :
    exec (.encb 0x41) State.reset = .next { State.reset with rsp := [0x3200] } ∧ rspErr 0x3200 ≠ 0 ∧
      execWord 0x05800000 State.reset = .next { State.reset with rsp := [0x2200] } := ⟨rfl, by decide, rfl⟩

/-- KeyedAndDigestRunAlike, CommandsWriteOnlyTheirColumns, KeybufReachesOnlyInitk: commands in and out of each list. -/
theorem test_meets_lists : (Instr.encb 0).mnemonic ∈ [Mnemonic.encb, .decb, .final] ∧
    (Instr.encb 0).mnemonic ∉ [Mnemonic.ldk, .scrub] ∧ (Instr.encb 0).mnemonic ∉ [Mnemonic.initk, .initd, .scrub] ∧
    (Instr.ldk 0 0).mnemonic ∈ [Mnemonic.ldk, .stat] ∧ (Instr.encb 0).mnemonic ≠ .initk := by decide

/-- KeyedAndDigestRunAlike: a command that enters a session. -/
theorem test_meets_mode_change : (run .initd State.reset).mode = .digest ∧ State.reset.mode = .idle := ⟨rfl, rfl⟩

/-- CommandsWriteOnlyTheirColumns: a command and the state after it. -/
theorem test_meets_columns : exec .stat State.reset = .next { State.reset with rsp := [0x0200] } := rfl

/-- KeyPseudoStartsTheSession at both ends of its range. -/
theorem test_meets_key : 1 ≤ ([0] : List Byte).length ∧ (List.replicate 256 (0 : Byte)).length ≤ 256 :=
  ⟨by decide, by rw [List.length_replicate]⟩

/-- TraceReplaysToTheSameMemories; its states for steps are those of test_meets_memory and test_meets_step_invariants. -/
theorem test_meets_trace : (Instr.ldk 1 2).wellFormed = true ∧ MemoryInv State.reset ∧
    exec (.ldk 1 2) State.reset = .next { State.reset with keybuf := [(1, 2)], rsp := [0x0200] } :=
  ⟨rfl, ⟨rfl, rfl⟩, rfl⟩

/-- AccessCountsPerCommand: each command without error. -/
theorem test_meets_counts : [Instr.ldk 0 0, .initk 1, .initk 256, .initd, .encb 0, .decb 0, .final 0, .scrub, .stat].all
    (fun i => i.wellFormed && decide (Spec.errorOf i .keyed = .ok)) = true := by decide

/-- A session in which a word waits at the port. -/
def waitingState : State := { idState 1 3 5 7 0 with offered := some 0x08000000 }

/-- StepKeepsThePermutation. -/
theorem test_meets_handle : HandleInv waitingState := test_meets_permutation

/-- StepKeepsMemoriesCanonical. -/
theorem test_meets_memory : MemoryInv waitingState := by
  refine ⟨?_, rfl⟩
  show Memory.wf (Memory.fill fun k => k) = true
  exact Memory.wf_fill _

/-- StepKeepsTransientsZero, StepKeepsResponsesWellFormed, and the step they speak of. -/
theorem test_meets_step_invariants : QuietInv waitingState ∧ ResponseInv waitingState ∧
    (after (step waitingState) State.reset).rsp = [0x0600] :=
  ⟨rfl, trivial, rfl⟩

/-- StepRunsTheDecodedCommand and AcceptedWordsCompleteAndDrain: a word at the port of an idle engine, and the host that takes its
one response word. -/
theorem test_meets_step :
    (let s := { State.reset with offered := some 0x08000000, host := [.takeRsp] }
     s.rsp = [] ∧ s.inReset = false ∧ s.offered = some 0x08000000 ∧ decode 0x08000000 = .ok .stat ∧
       fetch s = some 0x08000000 ∧ s.host = List.replicate 1 .takeRsp ++ []) := ⟨rfl, rfl, rfl, rfl, rfl, rfl⟩

/-- IllegalWordRaisesIllegalCommand. -/
theorem test_meets_illegal_step :
    (let s := { State.reset with offered := some 0xFFFFFFFF }
     s.rsp = [] ∧ s.inReset = false ∧ s.offered = some 0xFFFFFFFF ∧ Spec.illegal 0xFFFFFFFF) :=
  ⟨rfl, rfl, rfl, .inr (.inl (by decide))⟩

/-- NoCommandStartsBeforeTheResponseIsTaken: a state for each of its cases. No run reaches the third, a word pending while `rst`
is high. -/
theorem test_meets_pending :
    step { State.reset with rsp := [0x0200], host := [.takeRsp], offered := some 0x08000000 } =
      .next { State.reset with offered := some 0x08000000 } ∧
    step { passwordState with rsp := [0x0200], host := [.assertRst] } = .next { passwordState with inReset := true } ∧
    step { passwordState with rsp := [0x0200], host := [.releaseRst], inReset := true } = .next State.reset ∧
    step { passwordState with rsp := [0x0200], host := [.releaseRst] } = .next { passwordState with rsp := [0x0200] } ∧
    step { passwordState with rsp := [0x0200] } = .next { passwordState with rsp := [0x0200] } ∧
    ([0x0200] : List RspWord) ≠ [] := ⟨rfl, rfl, rfl, rfl, rfl, by decide⟩

/-- ResetMakesTheAccessesOfScrub: the release of a high `rst`, the release of a low one, and an illegal word. -/
theorem test_meets_reset_work :
    fetch { State.reset with inReset := true, host := [.releaseRst], offered := some 0 } = none ∧
    fetch { State.reset with host := [.releaseRst] } = none ∧
    fetch { State.reset with offered := some 0 } = some 0 ∧ Spec.illegal 0 := ⟨rfl, rfl, rfl, .inl rfl⟩

/-- StepKeepsNoWordDuringReset: before and while `rst` is high. -/
theorem test_meets_reset_invariant :
    ResetInv { State.reset with rsp := [0x0200], host := [.assertRst] } ∧ ResetInv { State.reset with inReset := true } ∧
    step { State.reset with rsp := [0x0200], host := [.assertRst] } = .next { State.reset with inReset := true } :=
  ⟨(fun h => nomatch h), fun _ => rfl, rfl⟩

/-- UndrainedHostIsStuck: a host that offers a command and does no more. -/
theorem test_meets_stuck :
    ([0x0200] : List RspWord) ≠ [] ∧
    (∀ a ∈ [HostAct.raiseCmd 0x08000000], a ≠ .takeRsp ∧ a ≠ .assertRst) ∧
    core.run 2 { State.reset with rsp := [0x0200], host := [.raiseCmd 0x08000000] } =
      .next { State.reset with rsp := [0x0200], offered := some 0x08000000 } := ⟨by decide, by decide, rfl⟩

/-- ResetReachesTheResetState: in the middle of a response, with another word offered. -/
theorem test_meets_reset :
    (let s := { passwordState with rsp := [0x0200], offered := some 0x08000000, host := [.assertRst, .releaseRst] }
     fetch s = none ∧ s.host = .assertRst :: .releaseRst :: []) := ⟨rfl, rfl⟩

/-! ## The longer evaluations -/

/-- V-K1: after positions 255 to 248 of the key "password", rsum is 101 and keypos has wrapped to 0. -/
theorem test_shuffle_password :
    (let s := [255, 254, 253, 252, 251, 250, 249, 248].foldl (fun s i => shufflePosition 8 i s) (beginSchedule passwordState)
     (s.transients.toswap, s.transients.rsum, s.transients.keypos)) = (101, 101, 0) := by decide +kernel

/-- V-K2: the one-byte key 00: position 253 rejects one candidate and takes 2. -/
theorem test_keyrand_rejects :
    (let s := [255, 254, 253].foldl (fun s i => shufflePosition 1 i s) (beginSchedule State.reset)
     (s.transients.toswap, s.transients.rej)) = (2, 1) := by decide +kernel

/-- R70, D12: the twelfth candidate is reduced even where it equals the limit; an earlier one is taken. -/
theorem test_twelfth_attempt :
    (let s := { idState 0 0 0 0 0 with transients := { Transients.zero with rsum := 69, mask := 127 } }
     ((attempts 1 70 0 s).transients.toswap, (attempts 1 70 1 s).transients.toswap)) = (0, 70) := by decide +kernel

/-- V-T3: the four entries that change. -/
theorem test_encb_moves : changes (run (.encb 0) (idState 0xFF 0x10 0x20 0x30 0x40)).pv
      [0x00, 0x01, 0x0F, 0x10, 0x20, 0x30, 0x40, 0xFF] = [(0x00, 0x40), (0x0F, 0x30), (0x30, 0x00), (0x40, 0x0F)] := by decide +kernel

/-- MovesPermuteInEveryCoincidence: one state for each of the fifteen cases, with the entries V-T8 gives as changed (right, pride,
left, radix of S3 to S7). -/
theorem test_meets_moves :
    [((0x50, 0x30, 0x40, 0x11), [(0x11, 0x50), (0x30, 0x40), (0x40, 0x11), (0x50, 0x30)]),
     ((0x30, 0x30, 0x40, 0x11), [(0x11, 0x30), (0x30, 0x40), (0x40, 0x11)]),
     ((0x50, 0x30, 0x30, 0x11), [(0x11, 0x50), (0x30, 0x11), (0x50, 0x30)]),
     ((0x50, 0x30, 0x11, 0x11), [(0x11, 0x50), (0x30, 0x11), (0x50, 0x30)]),
     ((0x11, 0x30, 0x40, 0x11), [(0x30, 0x40), (0x40, 0x30)]),
     ((0x50, 0x30, 0x50, 0x11), [(0x11, 0x50), (0x50, 0x11)]),
     ((0x50, 0x11, 0x40, 0x11), [(0x11, 0x50), (0x50, 0x11)]),
     ((0x30, 0x30, 0x11, 0x11), [(0x11, 0x30), (0x30, 0x11)]),
     ((0x50, 0x11, 0x50, 0x11), [(0x11, 0x50), (0x50, 0x11)]),
     ((0x11, 0x30, 0x30, 0x11), []),
     ((0x30, 0x30, 0x30, 0x11), [(0x11, 0x30), (0x30, 0x11)]),
     ((0x50, 0x11, 0x11, 0x11), [(0x11, 0x50), (0x50, 0x11)]),
     ((0x11, 0x11, 0x40, 0x11), []),
     ((0x11, 0x30, 0x11, 0x11), []),
     ((0x11, 0x11, 0x11, 0x11), [])].all
      (fun c : (Byte × Byte × Byte × Byte) × List (Byte × Byte) =>
        changes (fourMoves (moveState c.1.1 c.1.2.1 c.1.2.2.1 c.1.2.2.2)).pv [0x11, 0x30, 0x40, 0x50] == c.2) = true := by decide +kernel

end Sys2Proof.Tests
end

section
/-! PROOFS. The response of a command: its words by number, LAST and DV in them, and the two ways every command ends
(30_encoding R52, R53; 60_exceptions R105 to R111). -/

namespace Sys2Proof.Machine

/-! ## Response words -/

/-- The status word by number (R52). -/
theorem responseWord_none (e : ErrCode) (m : Mode) :
    responseWord e m true none = Spec.statusWord e.code.toNat m := by
  cases e <;> cases m <;> rfl

/-- Two bytes joined, by number. -/
theorem append_bytes_eq_ofNat (hi lo : Byte) : hi ++ lo = BitVec.ofNat 16 (hi.toNat * 256 + lo.toNat) := by
  apply BitVec.eq_of_toNat_eq
  rw [BitVec.toNat_append, ← Nat.shiftLeft_add_eq_or_of_lt lo.isLt, Nat.shiftLeft_eq, BitVec.toNat_ofNat]
  omega

/-- A data word by number (R52): eight bits of status above the output byte. -/
theorem responseWord_some (m : Mode) (last : Bool) (b : Byte) :
    responseWord .ok m last (some b) = Spec.dataWord m last b := by
  have hstatus := append_bytes_eq_ofNat (ErrCode.ok.code ++ m.code ++ BitVec.ofBool last ++ (1 : BitVec 1)) b
  refine hstatus.trans ?_
  cases m <;> cases last <;> rfl

/-- LAST reads back (R52). -/
@[simp] theorem rspLast_responseWord (e : ErrCode) (m : Mode) (last : Bool) (out : Option Byte) :
    rspLast (responseWord e m last out) = last := by
  cases out <;> cases last <;> simp only [rspLast, responseWord, BitVec.getLsbD_append] <;> rfl

/-- DV says whether there is an output byte (R52). -/
@[simp] theorem rspDv_responseWord (e : ErrCode) (m : Mode) (last : Bool) (out : Option Byte) :
    rspDv (responseWord e m last out) = out.isSome := by
  cases out <;> simp only [rspDv, responseWord, BitVec.getLsbD_append] <;> rfl

/-! ## The words of one response -/

/-- Word `j` of `k` output bytes is a data word, with LAST = 1 when `j = k - 1` (R53). -/
theorem dataWords_eq_mapIdx (m : Mode) (bs : List Byte) :
    dataWords m bs = bs.mapIdx fun j b => Spec.dataWord m (decide (j + 1 = bs.length)) b := by
  fun_induction dataWords m bs with
  | case1 => rfl
  | case2 b => simp [responseWord_some]
  | case3 b b' bs ih => simp [responseWord_some, ih, List.mapIdx_cons]

/-- A command without error answers the words of R53. -/
theorem responseWords_ok (m : Mode) (out : List Byte) : responseWords .ok m out = Spec.okWords m out := by
  cases out with
  | nil => exact congrArg (fun w => [w]) (responseWord_none .ok m)
  | cons b bs => exact dataWords_eq_mapIdx m (b :: bs)

/-- Before the last word of a response LAST is 0, and in the last it is 1 (R53). -/
theorem map_rspLast_responseWords (e : ErrCode) (m : Mode) (out : List Byte) :
    (responseWords e m out).map rspLast = List.replicate (out.length - 1) false ++ [true] := by
  have data (b : Byte) (bs : List Byte) :
      (dataWords m (b :: bs)).map rspLast = List.replicate bs.length false ++ [true] := by
    induction bs generalizing b with
    | nil => simp [dataWords]
    | cons b' bs ih => simp [dataWords, ih, List.replicate_succ]
  cases out with
  | nil => simp [responseWords]
  | cons b bs => exact data b bs

/-- Exactly one word of a response has LAST = 1 (R53). -/
theorem countP_rspLast_responseWords (e : ErrCode) (m : Mode) (out : List Byte) :
    (responseWords e m out).countP rspLast = 1 := by
  have h : ((responseWords e m out).map rspLast).countP id = 1 := by
    simp [map_rspLast_responseWords, List.countP_replicate]
  rwa [List.countP_map] at h

/-- The last word of a response has LAST = 1 (R53). -/
theorem rspLast_of_getLast?_responseWords {e : ErrCode} {m : Mode} {out : List Byte} {w : RspWord}
    (h : (responseWords e m out).getLast? = some w) : rspLast w = true := by
  have hmap := congrArg List.getLast? (map_rspLast_responseWords e m out)
  simpa [List.getLast?_map, h] using hmap

/-- As many words of a response have DV = 1 as there are output bytes (R53). -/
theorem countP_rspDv_responseWords (e : ErrCode) (m : Mode) (out : List Byte) :
    (responseWords e m out).countP rspDv = out.length := by
  have data (bs : List Byte) : (dataWords m bs).countP rspDv = bs.length := by
    fun_induction dataWords m bs with
    | case1 => rfl
    | case2 b => simp
    | case3 b b' bs ih => simp [ih]
  cases out with
  | nil => simp [responseWords]
  | cons b bs => exact data (b :: bs)

/-- A response has at least one word (R53). -/
theorem responseWords_ne_nil (e : ErrCode) (m : Mode) (out : List Byte) : responseWords e m out ≠ [] := by
  rw [← List.length_pos_iff, responseWords_length]
  omega

/-- The form of a response (R53): at least one word, LAST in the last and no other, DV in one for each output byte. -/
theorem responseWords_form (e : ErrCode) (m : Mode) (out : List Byte) :
    responseWords e m out ≠ [] ∧ (responseWords e m out).countP rspLast = 1 ∧
      (∀ w, (responseWords e m out).getLast? = some w → rspLast w = true) ∧
      (responseWords e m out).countP rspDv = out.length :=
  ⟨responseWords_ne_nil e m out, countP_rspLast_responseWords e m out,
    fun _ => rspLast_of_getLast?_responseWords, countP_rspDv_responseWords e m out⟩

/-! ## How a command ends -/

/-- All that an error does (R110): one status word, and transients at zero. -/
theorem raise_eq (e : ErrCode) (s : State) :
    raise e s = { s with transients := .zero, rsp := [Spec.statusWord e.code.toNat s.mode] } := by
  rw [← responseWord_none]
  rfl

/-- An illegal word raises IllegalCommand (R107). -/
theorem execWord_of_decode_error {w : CmdWord} {e : DecodeError} (h : decode w = .error e) (s : State) :
    execWord w s = .next (raise .illegalCommand s) := by
  simp only [execWord, h]

/-- The two ways a command can end: with an error, on the state it met and without an output byte, or without one and with
as many output bytes as R53 gives it. -/
inductive Ends (i : Instr) (s : State) : Prop where
  | error (herr : Spec.errorOf i s.mode ≠ .ok) (hout : Spec.outputs i s.mode = 0)
      (hexec : exec i s = .next (raise (Spec.errorOf i s.mode) s))
  | ok (herr : Spec.errorOf i s.mode = .ok) (out : List Byte) (t : State)
      (hout : out.length = Spec.outputs i s.mode) (hexec : exec i s = .next (respond out t))

/-- A command with a MODE test ends with NoSession in IDLE (R108) and as its work ends it in a session. -/
theorem ends_of_inSession {i : Instr} {s : State} {work : State → State} {out : List Byte} {t : State}
    (hexec : exec i s = .next (inSession s work)) (hwork : work s = respond out t)
    (hidle : Spec.errorOf i .idle = .noSession)
    (hkeyed : Spec.errorOf i .keyed = .ok ∧ out.length = Spec.outputs i .keyed)
    (hdigest : Spec.errorOf i .digest = .ok ∧ out.length = Spec.outputs i .digest) : Ends i s := by
  obtain ⟨hm, hraise⟩ | ⟨hm, hrun⟩ := inSession_cases s work
  · have herr : Spec.errorOf i s.mode = .noSession := hm ▸ hidle
    exact .error (by simp [herr]) (by rw [hm]; rfl) (by rw [hexec, hraise, herr])
  · obtain ⟨herr, hout⟩ : Spec.errorOf i s.mode = .ok ∧ out.length = Spec.outputs i s.mode := by
      cases hmode : s.mode with
      | idle => exact absurd hmode hm
      | keyed => exact hkeyed
      | digest => exact hdigest
    exact .ok herr out t hout (by rw [hexec, hrun, hwork])

/-- INITK raises IllegalCommand above 256, InvalidKey at 0, and else answers a status word (R65, R66, R111). -/
theorem initk_ends (len : BitVec 16) (s : State) : Ends (.initk len) s := by
  have hout : Spec.outputs (.initk len) s.mode = 0 := by cases s.mode <;> rfl
  by_cases hlong : 256 < len.toNat
  · have herr : Spec.errorOf (.initk len) s.mode = .illegalCommand := if_pos hlong
    exact .error (by simp [herr]) hout (by rw [herr]; exact if_pos hlong)
  by_cases hzero : len = 0
  · have herr : Spec.errorOf (.initk len) s.mode = .invalidKey := (if_neg hlong).trans (if_pos hzero)
    exact .error (by simp [herr]) hout (by rw [herr]; exact (if_neg hlong).trans (if_pos hzero))
  · exact .ok ((if_neg hlong).trans (if_neg hzero)) [] _ hout.symm ((if_neg hlong).trans (if_neg hzero))

/-- Every command ends in one of the two ways. -/
theorem exec_ends (i : Instr) (s : State) : Ends i s := by
  cases i with
  | ldk idx byte => exact .ok rfl [] _ (by cases s.mode <;> rfl) rfl
  | initk len => exact initk_ends len s
  | initd => exact .ok rfl [] _ (by cases s.mode <;> rfl) rfl
  | encb byte => exact ends_of_inSession rfl rfl rfl ⟨rfl, rfl⟩ ⟨rfl, rfl⟩
  | decb byte => exact ends_of_inSession rfl rfl rfl ⟨rfl, rfl⟩ ⟨rfl, rfl⟩
  | final len =>
    obtain ⟨-, hlen⟩ := finalBody_frame len s
    exact ends_of_inSession rfl rfl rfl ⟨rfl, hlen⟩ ⟨rfl, hlen⟩
  | scrub => exact .ok rfl [] _ (by cases s.mode <;> rfl) rfl
  | stat => exact .ok rfl [] _ (by cases s.mode <;> rfl) rfl

/-- Settles O24: in both ways a command can end, its response is the `responseWords` of its output bytes. -/
theorem everyCommandAnswersOneResponse : Obligations.EveryCommandAnswersOneResponse := by
  refine ⟨fun w e s h => ⟨_, execWord_of_decode_error h s, by rw [raise_eq]; rfl⟩, fun i s => ?_⟩
  cases exec_ends i s with
  | error herr hout hexec =>
    refine ⟨_, [], hexec, ?_, hout.symm, ?_⟩
    · rw [if_neg herr, raise_eq]
    · rw [raise_rsp, hout]
      exact responseWords_form _ s.mode []
  | ok herr out t hout hexec =>
    refine ⟨_, out, hexec, ?_, hout, ?_⟩
    · rw [if_pos herr, respond_rsp, responseWords_ok, respond_mode]
    · rw [respond_rsp, ← hout]
      exact responseWords_form .ok t.mode out

end Sys2Proof.Machine
end

section
/-! PROOFS. Which words are illegal and how many are not, and that each command but STAT changes the state (30_encoding R47 to
R51). -/

namespace Sys2Proof.Machine

/-! ## The fields of a word by number (R47) -/

theorem opField_toNat (w : CmdWord) : (opField w).toNat = w.toNat / 2 ^ 24 := by
  rw [opField, BitVec.extractLsb'_toNat, Nat.shiftRight_eq_div_pow]
  omega

theorem zeroField_toNat (w : CmdWord) : (zeroField w).toNat = w.toNat / 2 ^ 16 % 2 ^ 8 := by
  rw [zeroField, BitVec.extractLsb'_toNat, Nat.shiftRight_eq_div_pow]

theorem idxField_toNat (w : CmdWord) : (idxField w).toNat = w.toNat / 2 ^ 8 % 2 ^ 8 := by
  rw [idxField, BitVec.extractLsb'_toNat, Nat.shiftRight_eq_div_pow]

theorem lenField_toNat (w : CmdWord) : (lenField w).toNat = w.toNat % 2 ^ 16 := by
  rw [lenField, BitVec.extractLsb'_toNat, Nat.shiftRight_eq_div_pow, pow_zero, Nat.div_one]

/-! ## Illegal words -/

/-- A row's operand test refuses exactly the words that fail it. -/
theorem exists_error_ite_iff {c : Prop} [Decidable c] (e₀ : DecodeError) (i : Instr) :
    (∃ e, (if c then Except.error e₀ else Except.ok i : Except DecodeError Instr) = .error e) ↔ c := by
  split <;> simp [*]

/-- The decoder refuses exactly the words R51 lists: at each opcode, those that fail the test of its row. -/
theorem decode_error_iff_illegal (w : CmdWord) : (∃ e, decode w = .error e) ↔ Spec.illegal w := by
  unfold decode
  by_cases hzero : zeroField w = 0
  case neg =>
    rw [if_pos hzero]
    exact iff_of_true ⟨_, rfl⟩ (.inr (.inr (.inl hzero)))
  rw [if_neg (not_not.mpr hzero)]
  split
  case h_9 h1 h2 h3 h4 h5 h6 h7 h8 =>
    have hop : (opField w).toNat = 0 ∨ 9 ≤ (opField w).toNat := by
      simp only [imp_false] at h1 h2 h3 h4 h5 h6 h7 h8
      omega
    exact iff_of_true ⟨_, rfl⟩ (hop.imp_right .inl)
  case h_1 hop => simp [Spec.illegal, hzero, hop]
  case h_6 hop => simp [Spec.illegal, hzero, hop]
  all_goals
    rename_i hop
    rw [exists_error_ite_iff]
    simp [Spec.illegal, hzero, hop, Config.keyMax]

/-- The legal words are those that are not illegal. -/
theorem decode_ok_iff_not_illegal (w : CmdWord) : (∃ i, decode w = .ok i) ↔ ¬ Spec.illegal w := by
  rw [← decode_error_iff_illegal]
  cases decode w <;> simp

/-! ## The legal words as a list -/

/-- The legal words of each row of R49, as numbers: the first and how many. -/
def legalRanges : List (Nat × Nat) :=
  [(0x01000000, 65536), (0x02000000, 257), (0x03000000, 1), (0x04000000, 256),
    (0x05000000, 256), (0x06000000, 65536), (0x07000000, 1), (0x08000000, 1)]

/-- All legal words, in rising order. -/
def legalWords : List CmdWord := legalRanges.flatMap fun r => (List.range' r.1 r.2).map (BitVec.ofNat 32)

/-- The words R51 leaves legal, by number. -/
theorem not_illegal_iff_mem_range (w : CmdWord) :
    ¬ Spec.illegal w ↔ ∃ r ∈ legalRanges, r.1 ≤ w.toNat ∧ w.toNat < r.1 + r.2 := by
  have hzero {n : Nat} (x : BitVec n) : x ≠ 0 ↔ x.toNat ≠ 0 := not_congr BitVec.toNat_inj.symm
  simp only [Spec.illegal, legalRanges, hzero, opField_toNat, zeroField_toNat, idxField_toNat, lenField_toNat,
    List.mem_cons, List.not_mem_nil, or_false, exists_eq_or_imp, exists_eq_left]
  omega

/-- A range of words below `2 ^ 32` holds the words whose number lies in it. -/
theorem mem_wordRange {start n : Nat} (h : start + n ≤ 2 ^ 32) (w : CmdWord) :
    w ∈ (List.range' start n).map (BitVec.ofNat 32) ↔ start ≤ w.toNat ∧ w.toNat < start + n := by
  rw [List.mem_map]
  constructor
  · rintro ⟨k, hk, rfl⟩
    rw [List.mem_range'_1] at hk
    rwa [BitVec.toNat_ofNat, Nat.mod_eq_of_lt (by omega)]
  · exact fun hw => ⟨w.toNat, List.mem_range'_1.mpr hw, (BitVec.ofNat_toNat 32 w).trans (BitVec.setWidth_eq w)⟩

/-- A range of words below `2 ^ 32` names no word twice. -/
theorem wordRange_nodup {start n : Nat} (h : start + n ≤ 2 ^ 32) :
    ((List.range' start n).map (BitVec.ofNat 32)).Nodup := by
  refine List.Nodup.map_on (fun a ha b hb heq => ?_) (List.nodup_range' _)
  rw [List.mem_range'_1] at ha hb
  have hnat := congrArg BitVec.toNat heq
  rwa [BitVec.toNat_ofNat, BitVec.toNat_ofNat, Nat.mod_eq_of_lt (by omega), Nat.mod_eq_of_lt (by omega)] at hnat

theorem legalRanges_bounded : ∀ r ∈ legalRanges, r.1 + r.2 ≤ 2 ^ 32 := by decide

theorem legalRanges_rising : legalRanges.Pairwise fun r r' => r.1 + r.2 ≤ r'.1 := by decide

/-- The list holds the legal words and no other. -/
theorem mem_legalWords (w : CmdWord) : w ∈ legalWords ↔ ∃ i, decode w = .ok i := by
  rw [decode_ok_iff_not_illegal, not_illegal_iff_mem_range, legalWords, List.mem_flatMap]
  exact exists_congr fun r => and_congr_right fun hr => mem_wordRange (legalRanges_bounded r hr) w

theorem legalWords_length : legalWords.length = 131844 := by
  simp only [legalWords, List.length_flatMap, List.length_map, List.length_range']
  rfl

theorem legalWords_nodup : legalWords.Nodup := by
  rw [legalWords, List.nodup_flatMap]
  refine ⟨fun r hr => wordRange_nodup (legalRanges_bounded r hr), ?_⟩
  refine legalRanges_rising.imp_of_mem fun {r r'} hr hr' hle w hw hw' => ?_
  rw [mem_wordRange (legalRanges_bounded r hr)] at hw
  rw [mem_wordRange (legalRanges_bounded r' hr')] at hw'
  omega

/-! ## Every legal command but STAT and INITK 0 has an effect -/

/-- A command changes the architectural state from some state: it is no no-operation (R51). -/
def HasEffect (i : Instr) : Prop := ∃ s t, exec i s = .next t ∧ ¬ SameArch s t

/-- LDK changes an entry that held another byte. -/
theorem ldk_hasEffect (idx byte : Byte) : HasEffect (.ldk idx byte) := by
  let s := { State.reset with keybuf := Memory.write [] idx (byte + 1) }
  refine ⟨s, _, rfl, fun ⟨_, _, _, _, _, _, _, hkeybuf⟩ => ?_⟩
  have hread : byte + 1 = byte := by
    simpa [s] using congrArg (Memory.read · idx) hkeybuf
  simp at hread

/-- INITK of a legal length other than 0 starts a session. -/
theorem initk_hasEffect {len : BitVec 16} (hlen : (Instr.initk len).wellFormed = true) (hne : len ≠ 0) :
    HasEffect (.initk len) := by
  have hle : ¬ len.toNat > Config.keyMax := not_lt.mpr (of_decide_eq_true hlen)
  refine ⟨State.reset, respond [] (keySchedule len State.reset), (if_neg hle).trans (if_neg hne),
    fun ⟨_, _, _, _, _, _, hmode, _⟩ => ?_⟩
  obtain ⟨hkeyed, -⟩ := keySchedule_frame len State.reset
  rw [respond_mode, hkeyed] at hmode
  cases hmode

/-- INITD starts a session. -/
theorem initd_hasEffect : HasEffect .initd :=
  ⟨State.reset, _, rfl, fun ⟨_, _, _, _, _, _, hmode, _⟩ => nomatch hmode⟩

/-- The session INITD starts after reset: radix is 1 and left is 7 (R77). -/
def digestSession : State := digestHandle State.reset

/-- ENCB advances radix. -/
theorem encb_hasEffect (byte : Byte) : HasEffect (.encb byte) :=
  ⟨digestSession, _, rfl, fun ⟨_, hradix, _⟩ => nomatch hradix⟩

/-- DECB advances radix. -/
theorem decb_hasEffect (byte : Byte) : HasEffect (.decb byte) :=
  ⟨digestSession, _, rfl, fun ⟨_, hradix, _⟩ => nomatch hradix⟩

/-- The last byte of the whitening pass is 0, and it stands in left. -/
theorem whiten_succ_left (k : Nat) (s : State) : (whiten (k + 1) s).left = 0 := by
  induction k generalizing s with
  | zero => rfl
  | succ k ih => exact ih _

/-- The squeeze keeps a left of 0, the byte it puts through ENCB. -/
theorem squeeze_left (k : Nat) {s : State} (h : s.left = 0) : (squeeze k s).1.left = 0 := by
  induction k generalizing s with
  | zero => exact h
  | succ k ih => exact ih (encbBody_left _ _)

/-- FINAL leaves 0 in left (R95). -/
theorem finalBody_left (len : BitVec 16) (s : State) : (finalBody len s).1.left = 0 :=
  squeeze_left _ (whiten_succ_left 255 s)

/-- FINAL changes a left that was not 0. -/
theorem final_hasEffect (len : BitVec 16) : HasEffect (.final len) := by
  let r := finalBody len digestSession
  refine ⟨digestSession, respond r.2 r.1, rfl, fun ⟨_, _, _, _, hleft, _⟩ => ?_⟩
  rw [respond_left, finalBody_left] at hleft
  cases hleft

/-- SCRUB ends a session. -/
theorem scrub_hasEffect : HasEffect .scrub :=
  ⟨digestSession, _, rfl, fun ⟨_, hradix, _⟩ => nomatch hradix⟩

/-- No well-formed command but STAT and INITK 0 is a no-operation (R51). -/
theorem hasEffect_of_wellFormed {i : Instr} (hwf : i.wellFormed = true) (hstat : i ≠ .stat) (hinitk : i ≠ .initk 0) :
    HasEffect i := by
  cases i with
  | ldk idx byte => exact ldk_hasEffect idx byte
  | initk len => exact initk_hasEffect hwf fun h => hinitk (congrArg Instr.initk h)
  | initd => exact initd_hasEffect
  | encb byte => exact encb_hasEffect byte
  | decb byte => exact decb_hasEffect byte
  | final len => exact final_hasEffect len
  | scrub => exact scrub_hasEffect
  | stat => exact absurd rfl hstat

/-! ## What an illegal word does -/

/-- An illegal word answers IllegalCommand and changes nothing else (R51, R107, R110). -/
theorem execWord_of_illegal {w : CmdWord} (h : Spec.illegal w) (s : State) :
    execWord w s = .next { s with transients := .zero, rsp := [Spec.statusWord 2 s.mode] } := by
  obtain ⟨e, he⟩ := (decode_error_iff_illegal w).mpr h
  rw [execWord_of_decode_error he, raise_eq]
  rfl

/-- Settles O4: from the decoder's test at each opcode, the ranges of legal words, and one state for each command. -/
theorem illegalWordsAreTheseAndChangeNothing : Obligations.IllegalWordsAreTheseAndChangeNothing :=
  ⟨decode_error_iff_illegal, ⟨_, rfl⟩, ⟨_, rfl⟩, ⟨legalWords, legalWords_nodup, legalWords_length, mem_legalWords⟩,
    fun _ => hasEffect_of_wellFormed, fun _ s h => execWord_of_illegal h s⟩

end Sys2Proof.Machine
end

section
/-! PROOFS. The mask of keyrand: the table of R68 is `2 ^ n - 1` for the number `n` of binary digits of the limit, and what
follows from that (40_key_schedule R68). -/

namespace Sys2Proof.Machine

/-! ## The table of R68 in one form -/

/-- One row of R68 after the first: between two neighbouring powers of two the number of binary digits is constant. The two
bounds are found where a row is named. -/
theorem maskRow {m : Nat} (n : Nat) (hlow : 2 ^ n ≤ m := by omega) (hhigh : m < 2 ^ (n + 1) := by omega) :
    2 ^ (n + 1) - 1 = 2 ^ m.size - 1 := by
  rw [le_antisymm (Nat.size_le.mpr hhigh) (Nat.lt_size.mpr hlow)]

/-- The mask is `2 ^ n - 1` with `n` the number of binary digits of the limit: the nine rows of R68. -/
theorem maskFor_toNat (limit : Byte) : (maskFor limit).toNat = 2 ^ limit.toNat.size - 1 := by
  have hlt := limit.isLt
  unfold maskFor
  simp only [BitVec.le_def, BitVec.ofNat_eq_ofNat, BitVec.toNat_ofNat]
  split_ifs with h0
  · rw [Nat.le_zero.mp h0]
    rfl
  exacts [maskRow 0, maskRow 1, maskRow 2, maskRow 3, maskRow 4, maskRow 5, maskRow 6, maskRow 7]

/-- A masked byte is its remainder modulo `2 ^ n`, `n` the number of binary digits of the limit. -/
theorem maskFor_and_toNat (limit b : Byte) : (maskFor limit &&& b).toNat = b.toNat % 2 ^ limit.toNat.size := by
  rw [BitVec.toNat_and, maskFor_toNat, Nat.and_comm, Nat.and_two_pow_sub_one_eq_mod]

/-- A byte has at most eight binary digits. -/
theorem size_toNat_le (b : Byte) : b.toNat.size ≤ 8 := Nat.size_le.mpr b.isLt

/-- No `2 ^ n - 1` at or above the limit is below the mask (R68). -/
theorem maskFor_le_of_le {limit : Byte} {n : Nat} (h : limit.toNat ≤ 2 ^ n - 1) :
    (maskFor limit).toNat ≤ 2 ^ n - 1 := by
  have hsize : limit.toNat.size ≤ n := Nat.size_le.mpr (h.trans_lt (Nat.sub_one_lt (by positivity)))
  rw [maskFor_toNat]
  exact Nat.sub_le_sub_right (Nat.pow_le_pow_right two_pos hsize) 1

/-- The mask is at or above the limit (R68). -/
theorem le_maskFor (limit : Byte) : limit.toNat ≤ (maskFor limit).toNat := by
  rw [maskFor_toNat]
  exact Nat.le_sub_one_of_lt (Nat.lt_size_self _)

/-- A position is among the binary digits of a number exactly when a 1 stands at or above it. -/
theorem lt_size_iff_exists_testBit (m k : Nat) : k < m.size ↔ ∃ j, k ≤ j ∧ m.testBit j = true := by
  rw [Nat.lt_size]
  constructor
  · exact Nat.exists_ge_and_testBit_of_ge_two_pow
  · rintro ⟨j, hkj, hj⟩
    exact (Nat.pow_le_pow_right two_pos hkj).trans (Nat.ge_two_pow_of_testBit hj)

/-- The mask has a 1 exactly at or below the highest 1 of the limit (R68). -/
theorem getLsbD_maskFor (limit : Byte) (k : Nat) :
    (maskFor limit).getLsbD k = true ↔ ∃ j, k ≤ j ∧ limit.getLsbD j = true := by
  simp only [← BitVec.testBit_toNat, maskFor_toNat, Nat.testBit_two_pow_sub_one, decide_eq_true_eq,
    lt_size_iff_exists_testBit]

/-- The highest of the binary digits is a 1, so `2 ^ n` is at most twice the number, or 1. -/
theorem two_pow_size_lt (m : Nat) : 2 ^ m.size < 2 * (m + 1) := by
  cases hsize : m.size with
  | zero => omega
  | succ n =>
    have hdigit : 2 ^ n ≤ m := Nat.lt_size.mp (hsize ▸ n.lt_succ_self)
    rw [Nat.pow_succ']
    omega

/-- The mask is at most twice the limit (R68). -/
theorem maskFor_le_two_mul (limit : Byte) : (maskFor limit).toNat ≤ 2 * limit.toNat := by
  have h := two_pow_size_lt limit.toNat
  rw [maskFor_toNat]
  omega

/-! ## How many candidates fit -/

/-- In one block of `w` numbers `m + 1` are at most `m`. -/
theorem count_le_of_lt {w m : Nat} (hm : m < w) : Nat.count (fun r => r ≤ m) w = m + 1 := by
  obtain ⟨d, rfl⟩ := Nat.exists_eq_add_of_le hm
  rw [Nat.count_add, Nat.count_iff_forall.mpr (fun r hr => Nat.le_of_lt_succ hr),
    Nat.count_iff_forall_not.mpr (fun r _ => by omega), Nat.add_zero]

/-- In `n` blocks of `w` numbers, the remainders modulo `w` that are at most `m` come `m + 1` times a block. -/
theorem count_mod_le {w m : Nat} (hm : m < w) (n : Nat) :
    Nat.count (fun r => r % w ≤ m) (n * w) = n * (m + 1) := by
  induction n with
  | zero => simp
  | succ n ih =>
    have hblock : Nat.count (fun r => (n * w + r) % w ≤ m) w = m + 1 := by
      rw [← count_le_of_lt hm]
      simp only [Nat.count_eq_card_filter_range]
      refine congrArg Finset.card (Finset.filter_congr fun r hr => ?_)
      rw [Nat.mul_add_mod_self_right, Nat.mod_eq_of_lt (Finset.mem_range.mp hr)]
    rw [Nat.succ_mul, Nat.count_add, ih, hblock, Nat.succ_mul]

/-- Of the 256 values of rsum more than half give a candidate that fits (R68). -/
theorem half_lt_countP_fit (limit : Byte) :
    128 < (List.range 256).countP fun r => decide (maskFor limit &&& BitVec.ofNat 8 r ≤ limit) := by
  have hfit (r : Nat) : maskFor limit &&& BitVec.ofNat 8 r ≤ limit ↔ r % 2 ^ limit.toNat.size ≤ limit.toNat := by
    rw [BitVec.le_def, maskFor_and_toNat, BitVec.toNat_ofNat,
      Nat.mod_mod_of_dvd _ (Nat.pow_dvd_pow 2 (size_toNat_le limit))]
  have hblocks : 2 ^ (8 - limit.toNat.size) * 2 ^ limit.toNat.size = 256 := by
    rw [← pow_add, Nat.sub_add_cancel (size_toNat_le limit)]
    rfl
  have hcount := count_mod_le (Nat.lt_size_self limit.toNat) (2 ^ (8 - limit.toNat.size))
  rw [hblocks] at hcount
  simp only [hfit]
  refine lt_of_lt_of_eq ?_ hcount.symm
  have hhalf := Nat.mul_lt_mul_of_pos_left (two_pow_size_lt limit.toNat) (Nat.two_pow_pos (8 - limit.toNat.size))
  rw [hblocks, Nat.mul_left_comm] at hhalf
  omega

/-- Settles O12: each form follows from the mask being `2 ^ n - 1`, `n` the number of binary digits of the limit. -/
theorem maskIsSmallestAboveLimit : Obligations.MaskIsSmallestAboveLimit := fun limit =>
  ⟨⟨_, size_toNat_le limit, maskFor_toNat limit⟩, le_maskFor limit, fun _ => maskFor_le_of_le, getLsbD_maskFor limit,
    fun _ => maskFor_le_two_mul limit, half_lt_countP_fit limit⟩

end Sys2Proof.Machine
end

section
/-! PROOFS. The key schedule over plain functions: what it keeps, and on which entries of the key buffer it depends
(40_key_schedule R69 to R74). -/

namespace Sys2Proof.Spec

/-! ## A draw and a keyrand call -/

/-- A draw reads PV only (R69). -/
theorem draw_pv (key : Byte → Byte) (len : Nat) (c : Schedule) : (draw key len c).pv = c.pv := by
  unfold draw
  dsimp only
  split <;> rfl

/-- A draw keeps keypos below the length, by the wraparound (R69). -/
theorem draw_keypos_lt {key : Byte → Byte} {len : Nat} {c : Schedule} (h : c.keypos < len) :
    (draw key len c).keypos < len := by
  unfold draw
  dsimp only
  split
  · exact Nat.zero_lt_of_lt h
  · exact Nat.lt_of_le_of_ne h ‹_›

/-- The attempts read PV only, and keep keypos below the length (R70, R71). -/
theorem keyrand_frame (key : Byte → Byte) {len : Nat} (limit k : Nat) {c : Schedule} (h : c.keypos < len) :
    (keyrand key len limit k c).2.pv = c.pv ∧ (keyrand key len limit k c).2.keypos < len := by
  induction k generalizing c with
  | zero => exact ⟨draw_pv key len c, draw_keypos_lt h⟩
  | succ k ih =>
    rw [keyrand]
    split
    · exact ⟨draw_pv key len c, draw_keypos_lt h⟩
    · obtain ⟨hpv, hpos⟩ := ih (draw_keypos_lt (key := key) h)
      exact ⟨hpv.trans (draw_pv key len c), hpos⟩

/-! ## The shuffle keeps a bijection (R74 a) -/

/-- A true exchange is the function after the exchange of its two indices. -/
theorem swap_eq_comp (f : Byte → Byte) (i j : Byte) : swap f i j = f ∘ Equiv.swap i j := by
  funext x
  simp only [swap, Function.comp_apply, Equiv.swap_apply_def, apply_ite f]

/-- An exchange keeps a bijection. -/
theorem swap_bijective {f : Byte → Byte} (hf : f.Bijective) (i j : Byte) : (swap f i j).Bijective := by
  rw [swap_eq_comp]
  exact hf.comp (Equiv.swap i j).bijective

/-- The shuffle changes PV only by exchanges, so it keeps a bijection (R74 a). -/
theorem shuffle_bijective (key : Byte → Byte) {len : Nat} (k : Nat) {c : Schedule} (h : c.keypos < len)
    (hpv : c.pv.Bijective) : (shuffle key len k c).pv.Bijective := by
  induction k generalizing c with
  | zero => exact hpv
  | succ k ih =>
    obtain ⟨hkeep, hpos⟩ := keyrand_frame key k 11 h
    exact ih hpos (swap_bijective (hkeep.symm ▸ hpv) _ _)

/-- The key schedule makes a bijection (R74 a). -/
theorem schedule_bijective (key : Byte → Byte) {len : Nat} (h : 0 < len) : (schedule key len).pv.Bijective :=
  shuffle_bijective key 256 h Function.bijective_id

/-! ## The schedule depends on the key bytes below the length only (R74 b) -/

section Determinism

variable {key key' : Byte → Byte} {len : Nat} (hlen : len ≤ 256) (hkey : ∀ k : Byte, k.toNat < len → key k = key' k)

include hlen hkey

/-- A draw uses one key byte below the length. -/
theorem draw_congr {c : Schedule} (h : c.keypos < len) : draw key len c = draw key' len c := by
  have hbyte : key (BitVec.ofNat 8 c.keypos) = key' (BitVec.ofNat 8 c.keypos) :=
    hkey _ (by rw [BitVec.toNat_ofNat, Nat.mod_eq_of_lt] <;> omega)
  simp only [draw, hbyte]

/-- A keyrand call uses key bytes below the length. -/
theorem keyrand_congr (limit k : Nat) {c : Schedule} (h : c.keypos < len) :
    keyrand key len limit k c = keyrand key' len limit k c := by
  induction k generalizing c with
  | zero => simp only [keyrand, draw_congr hlen hkey h]
  | succ k ih => simp only [keyrand, draw_congr hlen hkey h, ih (draw_keypos_lt h)]

/-- The shuffle uses key bytes below the length. -/
theorem shuffle_congr (k : Nat) {c : Schedule} (h : c.keypos < len) :
    shuffle key len k c = shuffle key' len k c := by
  induction k generalizing c with
  | zero => rfl
  | succ k ih =>
    obtain ⟨-, hpos⟩ := keyrand_frame key' k 11 h
    simp only [shuffle, keyrand_congr hlen hkey k 11 h]
    exact ih hpos

/-- The key schedule is a function of the length and the key bytes below it (R74 b). -/
theorem schedule_congr (h : 0 < len) : schedule key len = schedule key' len := shuffle_congr hlen hkey 256 h

end Determinism

end Sys2Proof.Spec
end

section
/-! PROOFS. INITK: the machine follows the key schedule over plain functions, draw by draw (40_key_schedule R65 to R75). -/

namespace Sys2Proof.Machine

/-! ## The machine follows the schedule -/

/-- In the middle of INITK the state `s` stands where the schedule `c` over plain functions stands: the key `key` in KEYBUF, and
PV, rsum and keypos the same; keypos is an index into the key (R23). -/
structure Follows (key : Byte → Byte) (len : BitVec 16) (s : State) (c : Spec.Schedule) : Prop where
  keybuf : Memory.read s.keybuf = key
  pv : Memory.read s.pv = c.pv
  rsum : s.transients.rsum = c.rsum
  keypos : s.transients.keypos.toNat = c.keypos
  inKey : c.keypos < len.toNat

section Steps

variable {key : Byte → Byte} {len : BitVec 16} {s : State} {c : Spec.Schedule}

/-- The other transients play no part. -/
theorem Follows.of_transients (h : Follows key len s c) {x : Transients} (hrsum : x.rsum = s.transients.rsum)
    (hkeypos : x.keypos = s.transients.keypos) : Follows key len { s with transients := x } c :=
  ⟨h.keybuf, h.pv, hrsum.trans h.rsum, hkeypos ▸ h.keypos, h.inKey⟩

/-- The identity fill begins the schedule (R67). -/
theorem follows_beginSchedule (s : State) (hlen : 0 < len.toNat) :
    Follows (Memory.read s.keybuf) len (beginSchedule s) ⟨fun k => k, 0, 0⟩ :=
  ⟨rfl, funext fun k => by simp, rfl, rfl, hlen⟩

/-- Before the wraparound a draw has added the key byte to `PV[rsum]` and advanced keypos (R69). -/
theorem Follows.after_drawKeyByte (h : Follows key len s c) (hlen : len.toNat ≤ 256) :
    (drawKeyByte s).transients.rsum = c.pv c.rsum + key (BitVec.ofNat 8 c.keypos) ∧
      (drawKeyByte s).transients.keypos.toNat = c.keypos + 1 := by
  obtain ⟨rfl, hpv, hrsum, hkeypos, hin⟩ := h
  constructor
  · rw [← hpv, ← hrsum, ← hkeypos]
    rfl
  · have hadd : (s.transients.keypos + 1).toNat = (s.transients.keypos.toNat + 1) % 2 ^ 9 := BitVec.toNat_add _ _
    exact hadd.trans (by rw [hkeypos, Nat.mod_eq_of_lt (by omega)])

/-- One draw (R69). -/
theorem Follows.after_draw (h : Follows key len s c) (hlen : len.toNat ≤ 256) :
    Follows key len (draw len s) (Spec.draw key len.toNat c) := by
  obtain ⟨hrsum, hkeypos⟩ := h.after_drawKeyByte hlen
  rw [draw_eq]
  obtain ⟨hwrap, hstate⟩ | ⟨hwrap, hstate⟩ := wrapKey_cases len (drawKeyByte s)
  · rw [hkeypos] at hwrap
    simp only [Spec.draw, if_pos hwrap]
    refine ⟨h.keybuf, h.pv, ?_, ?_, Nat.zero_lt_of_lt h.inKey⟩
    · simp only [draw, hstate, hrsum, BitVec.ofNat_toNat]
    · simp only [draw, hstate]
      rfl
  · rw [hkeypos] at hwrap
    simp only [Spec.draw, if_neg hwrap]
    exact ⟨h.keybuf, h.pv, by simp only [draw, hstate, hrsum], by simp only [draw, hstate, hkeypos],
      Nat.lt_of_le_of_ne h.inKey hwrap⟩

/-- The candidate of a draw (R69). -/
theorem Follows.candidate {limit : Byte} (h : Follows key len s c) (hlen : len.toNat ≤ 256)
    (hmask : s.transients.mask = maskFor limit) :
    (draw len s).transients.u.toNat = Spec.candidate limit.toNat (Spec.draw key len.toNat c) := by
  rw [draw_u, hmask, maskFor_and_toNat, (h.after_draw hlen).rsum]
  rfl

/-- The attempts of a keyrand call: the same swap index after the same draws (R70, R71). -/
theorem Follows.after_attempts {limit : Byte} (h : Follows key len s c) (hlen : len.toNat ≤ 256)
    (hmask : s.transients.mask = maskFor limit) (k : Nat) :
    Follows key len (attempts len limit k s) (Spec.keyrand key len.toNat limit.toNat k c).2 ∧
      (attempts len limit k s).transients.toswap.toNat =
        (Spec.keyrand key len.toNat limit.toNat k c).1 := by
  induction k generalizing s c with
  | zero =>
    refine ⟨(h.after_draw hlen).of_transients rfl rfl, ?_⟩
    simp only [attempts, Spec.keyrand, BitVec.toNat_umod, h.candidate hlen hmask]
  | succ k ih =>
    have hu := h.candidate hlen hmask
    simp only [attempts, Spec.keyrand, BitVec.le_def, hu]
    split
    · exact ⟨(h.after_draw hlen).of_transients rfl rfl, hu⟩
    · obtain ⟨hmask', -⟩ := draw_mask_rej len s
      exact ih ((h.after_draw hlen).of_transients rfl rfl) (hmask'.trans hmask)

/-- One keyrand call (R71). -/
theorem Follows.after_keyrand {limit : Byte} (h : Follows key len s c) (hlen : len.toNat ≤ 256) :
    Follows key len (keyrand len limit s) (Spec.keyrand key len.toNat limit.toNat 11 c).2 ∧
      (keyrand len limit s).transients.toswap.toNat =
        (Spec.keyrand key len.toNat limit.toNat 11 c).1 :=
  (h.of_transients (x := { s.transients with mask := maskFor limit, rej := 0 }) rfl rfl).after_attempts hlen rfl 11

/-- The exchange through tmp is a true exchange (R67). -/
theorem read_exchange (m : Memory) (i j : Byte) :
    Memory.read (Memory.write (Memory.write m i (Memory.read m j)) j (Memory.read m i)) = Spec.swap (Memory.read m) i j := by
  funext x
  rw [Memory.read_write, Memory.read_write, Spec.swap]
  split_ifs with hj hi
  · rw [← hj, hi]
  · rfl
  · rfl
  · rfl

/-- One position of the shuffle (R67). -/
theorem Follows.after_shufflePosition (h : Follows key len s c) (hlen : len.toNat ≤ 256) {k : Nat} (hk : k < 256) :
    let r := Spec.keyrand key len.toNat k 11 c
    Follows key len (shufflePosition len (BitVec.ofNat 8 k) s)
      { r.2 with pv := Spec.swap r.2.pv (BitVec.ofNat 8 k) (BitVec.ofNat 8 r.1) } := by
  have hi : (BitVec.ofNat 8 k).toNat = k := by rw [BitVec.toNat_ofNat, Nat.mod_eq_of_lt hk]
  obtain ⟨hstate, hswap⟩ := (h.of_transients (x := { s.transients with i := BitVec.ofNat 8 k }) rfl rfl).after_keyrand
    (limit := BitVec.ofNat 8 k) hlen
  obtain ⟨hframe, hpv⟩ := shufflePosition_spec len (BitVec.ofNat 8 k) s
  obtain ⟨hkeep, -⟩ := Spec.keyrand_frame key k 11 h.inKey
  rw [hi] at hstate hswap
  refine ⟨by rw [hframe.keybuf, h.keybuf], ?_, hstate.rsum, hstate.keypos, hstate.inKey⟩
  rw [hpv, read_exchange, h.pv, hkeep, ← hswap, BitVec.ofNat_toNat, BitVec.setWidth_eq]

/-- The shuffle (R67). -/
theorem Follows.after_shuffle (h : Follows key len s c) (hlen : len.toNat ≤ 256) {k : Nat} (hk : k ≤ 256) :
    Follows key len (shuffle len k s) (Spec.shuffle key len.toNat k c) := by
  induction k generalizing s c with
  | zero => exact h
  | succ k ih => exact ih (h.after_shufflePosition hlen hk) (Nat.le_of_succ_le hk)

end Steps

/-- The whole shuffle of INITK ends where the key schedule ends (R66, R67). -/
theorem follows_schedule {len : BitVec 16} (s : State) (hpos : 0 < len.toNat) (hlen : len.toNat ≤ 256) :
    Follows (Memory.read s.keybuf) len (shuffle len Config.pvSize (beginSchedule s))
      (Spec.schedule (Memory.read s.keybuf) len.toNat) :=
  (follows_beginSchedule s hpos).after_shuffle hlen le_rfl

/-! ## The command -/

/-- INITK 0 raises InvalidKey before any write (R65). -/
theorem exec_initk_zero (s : State) :
    exec (.initk 0) s = .next { s with transients := .zero, rsp := [Spec.statusWord 1 s.mode] } :=
  congrArg Host.Outcome.next (raise_eq .invalidKey s)

/-- A length of at least 1 passes the test of R65. -/
theorem ne_zero_of_one_le_toNat {len : BitVec 16} (hpos : 1 ≤ len.toNat) : len ≠ 0 := by
  rintro rfl
  exact absurd hpos (by decide)

/-- INITK of 1 to 256 bytes runs the key schedule and answers without output (R66). -/
theorem exec_initk {len : BitVec 16} (s : State) (hpos : 1 ≤ len.toNat) (hlen : len.toNat ≤ 256) :
    exec (.initk len) s = .next (respond [] (keySchedule len s)) :=
  (if_neg (not_lt.mpr hlen)).trans (if_neg (ne_zero_of_one_le_toNat hpos))

/-- INITK of 1 to 256 bytes makes the accesses of the key schedule (R75, R134). -/
theorem accessTrace_initk {len : BitVec 16} (s : State) (hpos : 1 ≤ len.toNat) (hlen : len.toNat ≤ 256) :
    accessTrace (.initk len) s = keyScheduleTrace len s :=
  if_neg (not_or.mpr ⟨not_lt.mpr hlen, ne_zero_of_one_le_toNat hpos⟩)

/-- The handle of a finished schedule: PV, and the register load by the final rsum (R73). -/
def loadedHandle (c : Spec.Schedule) : Spec.Handle := ⟨c.pv, c.pv 1, c.pv 3, c.pv 5, c.pv 7, c.pv c.rsum⟩

/-- INITK leaves the handle of the finished schedule (R66, R73). -/
theorem handleOf_keySchedule {len : BitVec 16} (s : State) (hpos : 1 ≤ len.toNat) (hlen : len.toNat ≤ 256) :
    Spec.handleOf (keySchedule len s) = loadedHandle (Spec.schedule (Memory.read s.keybuf) len.toNat) := by
  have h := follows_schedule s hpos hlen
  rw [loadedHandle, ← h.pv, ← h.rsum]
  rfl

/-- All that a command without output and without error does when it ends (R53): one status word, and transients at zero. -/
theorem respond_nil_eq (s : State) :
    respond [] s = { s with transients := .zero, rsp := [Spec.statusWord 0 s.mode] } := by
  have hword : responseWord .ok s.mode true none = Spec.statusWord 0 s.mode := responseWord_none .ok s.mode
  rw [← hword]
  rfl

/-- The key schedule writes the handle, MODE and transients, as one equation (R29, R66). -/
theorem keySchedule_eq (len : BitVec 16) (s : State) :
    keySchedule len s =
      let t := keySchedule len s
      { s with pv := t.pv, radix := t.radix, pride := t.pride, chasm := t.chasm, left := t.left, right := t.right,
               mode := .keyed, transients := t.transients } := by
  obtain ⟨hmode, hkeybuf, hrsp, hoffered, hreset, hhost⟩ := keySchedule_frame len s
  rw [← hkeybuf, ← hrsp, ← hoffered, ← hreset, ← hhost, ← hmode]

/-- Settles O10: the machine follows the schedule over plain functions, and the rest is the frame of the key schedule. -/
theorem initkComputesTheKeySchedule : Obligations.InitkComputesTheKeySchedule := by
  refine ⟨exec_initk_zero, fun len s hpos hlen => ?_⟩
  have hhandle := handleOf_keySchedule s hpos hlen
  simp only [Spec.handleOf, loadedHandle, Spec.Handle.mk.injEq] at hhandle
  obtain ⟨hpv, hradix, hpride, hchasm, hleft, hright⟩ := hhandle
  obtain ⟨-, hkeybuf, -⟩ := keySchedule_frame len s
  refine ⟨_, exec_initk s hpos hlen, ⟨congrFun hpv, hradix, hpride, hchasm, hleft, hright⟩, fun i => ?_, ?_⟩
  · rw [respond_keybuf, hkeybuf]
  · rw [respond_nil_eq, keySchedule_eq]

/-- Settles O9: INITK 0 ends as an error, which writes transients and the response only. -/
theorem initkZeroRaisesInvalidKey : Obligations.InitkZeroRaisesInvalidKey := fun s =>
  ⟨_, exec_initk_zero s, ⟨rfl, rfl, rfl, rfl, rfl, rfl, rfl, rfl⟩, ⟨rfl, rfl, rfl⟩, rfl, rfl⟩

end Sys2Proof.Machine
end

section
/-! PROOFS. INITK leaves a bijection, depends on the key alone, and makes a bounded number of draws (40_key_schedule R72, R74,
R75). -/

namespace Sys2Proof.Machine

/-! ## PV after the key schedule -/

/-- The shuffle keeps PV in canonical form. -/
theorem wf_shuffle_pv (len : BitVec 16) (k : Nat) {s : State} (h : Memory.wf s.pv = true) :
    Memory.wf (shuffle len k s).pv = true := by
  induction k generalizing s with
  | zero => exact h
  | succ k ih =>
    refine ih ?_
    rw [(shufflePosition_spec len (BitVec.ofNat 8 k) s).2]
    exact Memory.wf_write _ _ (Memory.wf_write _ _ h)

/-- The register load leaves PV as the shuffle left it (R73). -/
theorem keySchedule_pv (len : BitVec 16) (s : State) :
    (keySchedule len s).pv = (shuffle len Config.pvSize (beginSchedule s)).pv := loadRegisters_pv _

/-- After INITK PV is in canonical form. -/
theorem wf_keySchedule_pv (len : BitVec 16) (s : State) : Memory.wf (keySchedule len s).pv = true := by
  rw [keySchedule_pv]
  exact wf_shuffle_pv len Config.pvSize (by rw [beginSchedule_pv, Memory.wf_fill])

/-- After INITK PV is a bijection (R74 a). -/
theorem isPermutation_keySchedule {len : BitVec 16} (s : State) (hpos : 1 ≤ len.toNat) (hlen : len.toNat ≤ 256) :
    isPermutation (keySchedule len s).pv := by
  have hpv : Memory.read (keySchedule len s).pv = _ := congrArg Spec.Handle.pv (handleOf_keySchedule s hpos hlen)
  rw [isPermutation, hpv]
  exact Spec.schedule_bijective _ hpos

/-- The handle after INITK is a function of the length and the key bytes below it (R74 b). -/
theorem handleOf_keySchedule_congr {len : BitVec 16} {s s' : State} (hpos : 1 ≤ len.toNat) (hlen : len.toNat ≤ 256)
    (hkey : ∀ k : Byte, k.toNat < len.toNat → Memory.read s.keybuf k = Memory.read s'.keybuf k) :
    Spec.handleOf (keySchedule len s) = Spec.handleOf (keySchedule len s') := by
  rw [handleOf_keySchedule s hpos hlen, handleOf_keySchedule s' hpos hlen, Spec.schedule_congr hlen hkey hpos]

/-! ## Draws (R72) -/

/-- A draw reads KEYBUF once (R75). -/
theorem countReads_drawTrace (s : State) : countReads .keybuf (drawTrace s) = 1 := rfl

/-- So many rejections allowed, at most one more draw (R70). -/
theorem countReads_attemptsTrace_le (len : BitVec 16) (limit : Byte) (k : Nat) (s : State) :
    countReads .keybuf (attemptsTrace len limit k s) ≤ k + 1 := by
  induction k generalizing s with
  | zero => exact le_rfl
  | succ k ih =>
    rw [attemptsTrace]
    split
    · rw [countReads_drawTrace]
      exact Nat.le_add_left 1 (k + 1)
    · rw [countReads_append, countReads_drawTrace, Nat.add_comm]
      exact Nat.succ_le_succ (ih _)

/-- The most draws one position of the shuffle makes: one where the limit is its own mask, else twelve (R72). -/
def maxDraws (limit : Byte) : Nat := if maskFor limit = limit then 1 else 12

/-- Where the limit is its own mask, the first candidate fits (R72). -/
theorem countReads_keyrandTrace_of_mask_eq {limit : Byte} (h : maskFor limit = limit) (len : BitVec 16) (s : State) :
    countReads .keybuf (keyrandTrace len limit s) = 1 := by
  have hfit (t : State) (ht : t.transients.mask = limit) : (draw len t).transients.u ≤ limit := by
    rw [draw_u, ht, BitVec.le_def, BitVec.toNat_and]
    exact Nat.and_le_left
  rw [keyrandTrace, Config.maxRejections, attemptsTrace, if_pos (hfit _ h), countReads_drawTrace]

/-- One keyrand call makes at most the draws of R72. -/
theorem countReads_keyrandTrace_le (len : BitVec 16) (limit : Byte) (s : State) :
    countReads .keybuf (keyrandTrace len limit s) ≤ maxDraws limit := by
  unfold maxDraws
  split
  · exact (countReads_keyrandTrace_of_mask_eq ‹_› len s).le
  · exact countReads_attemptsTrace_le len limit 11 _

/-- The draws of the positions below `k`, at most. -/
theorem countReads_shuffleTrace_le (len : BitVec 16) (k : Nat) (s : State) :
    countReads .keybuf (shuffleTrace len k s) ≤ ((List.range k).map fun i => maxDraws (BitVec.ofNat 8 i)).sum := by
  induction k generalizing s with
  | zero => exact le_rfl
  | succ k ih =>
    have hposition : countReads .keybuf (shufflePositionTrace len (BitVec.ofNat 8 k) s) ≤ maxDraws (BitVec.ofNat 8 k) := by
      rw [shufflePositionTrace, countReads_append]
      exact countReads_keyrandTrace_le len _ _
    rw [shuffleTrace, countReads_append, List.sum_range_succ, Nat.add_comm]
    exact Nat.add_le_add (ih _) hposition

/-- R72: nine positions of one draw and 247 of at most twelve. -/
theorem sum_maxDraws : ((List.range 256).map fun i => maxDraws (BitVec.ofNat 8 i)).sum = 9 + 247 * 12 := by
  decide +kernel

/-- INITK makes at most 2973 draws (R72, R74 c). -/
theorem countReads_keyScheduleTrace_le (len : BitVec 16) (s : State) :
    countReads .keybuf (keyScheduleTrace len s) ≤ 2973 := by
  have hload (t : State) : countReads .keybuf (loadTrace t) = 0 := rfl
  rw [keyScheduleTrace, countReads_append, countReads_append, countReads_fillTrace, hload, Nat.zero_add, Nat.add_zero]
  exact (countReads_shuffleTrace_le len 256 _).trans_eq sum_maxDraws

/-- Settles O11: the handle is that of the plain schedule, which is a bijection and reads key bytes below the length only; equal
reads of canonical memories make PV equal; and the draws are counted position by position. -/
theorem initkPermutesAndDependsOnKeyOnly : Obligations.InitkPermutesAndDependsOnKeyOnly := by
  intro len s s' hpos hlen hkey
  have hhandle := handleOf_keySchedule_congr hpos hlen hkey
  simp only [Spec.handleOf, Spec.Handle.mk.injEq] at hhandle
  obtain ⟨hread, hradix, hpride, hchasm, hleft, hright⟩ := hhandle
  have hpv : (keySchedule len s).pv = (keySchedule len s').pv :=
    Memory.wf_ext (wf_keySchedule_pv len s) (wf_keySchedule_pv len s') (congrFun hread)
  obtain ⟨hkeyed, -⟩ := keySchedule_frame len s
  obtain ⟨hkeyed', -⟩ := keySchedule_frame len s'
  have hmode : (keySchedule len s).mode = (keySchedule len s').mode := hkeyed.trans hkeyed'.symm
  refine ⟨_, _, exec_initk s hpos hlen, exec_initk s' hpos hlen, ?_⟩
  rw [accessTrace_initk s hpos hlen]
  simp only [respond_pv, respond_radix, respond_pride, respond_chasm, respond_left, respond_right, respond_mode, respond_rsp]
  exact ⟨isPermutation_keySchedule s hpos hlen, hpv, hradix, hpride, hchasm, hleft, hright, hmode,
    congrArg (responseWords .ok · []) hmode, countReads_keyScheduleTrace_le len s⟩

end Sys2Proof.Machine
end

section
/-! PROOFS. INITD: the handle of digest mode, whose PV is the reverse identity, from every state (41_digest_init R77). -/

namespace Sys2Proof.Machine

/-! ## PV after INITD -/

/-- A memory filled from a bijection is a bijection. -/
theorem isPermutation_fill {f : Byte → Byte} (hf : f.Bijective) : isPermutation (Memory.fill f) := by
  have hread : Memory.read (Memory.fill f) = f := funext (Memory.read_fill f)
  rwa [isPermutation, hread]

/-- The reverse identity is its own inverse, hence a bijection (R77). -/
theorem digestPv_bijective : Config.digestPv.Bijective :=
  have hinvolutive : Config.digestPv.Involutive := fun k => sub_sub_cancel (255 : Byte) k
  hinvolutive.bijective

/-! ## The command -/

/-- INITD sets the digest handle and answers without output, in every MODE (R77). -/
theorem exec_initd (s : State) : exec .initd s = .next (respond [] (digestHandle s)) := rfl

/-- The digest handle by number: PV, the five registers and MODE are overwritten, the rest stays (R7, R77). -/
theorem digestHandle_eq (s : State) :
    digestHandle s =
      { s with pv := Memory.fill Config.digestPv, radix := 1, pride := 3, chasm := 5, left := 7, right := 11,
               mode := .digest } := rfl

/-- Settles O14: the digest handle, field by field, then the end of a command without output; its PV is filled from an
involution. -/
theorem initdSetsTheDigestHandle : Obligations.InitdSetsTheDigestHandle := by
  refine ⟨rfl, fun s => ⟨_, exec_initd s, fun k => ?_, ?_, fun k => ?_, ?_⟩⟩
  · rw [respond_pv, digestHandle_pv, Memory.read_fill, Config.digestPv]
  · rw [respond_pv, digestHandle_pv]
    exact isPermutation_fill digestPv_bijective
  · rw [respond_keybuf, digestHandle_keybuf]
  · rw [respond_nil_eq, digestHandle_eq]

end Sys2Proof.Machine
end

section
/-! PROOFS. The four moves: each fills a hole and leaves one, so together they rearrange PV along a cycle of the four indices,
whichever of them coincide (42_byte_transform R82, R84, R85). -/

namespace Sys2Proof.Machine

/-! ## Writes as functions of the index -/

/-- A write, read as a function of the index. -/
theorem read_write_eq_put (m : Memory) (i v : Byte) : Memory.read (Memory.write m i v) = Spec.put (Memory.read m) i v :=
  funext fun x => Memory.read_write m i x v

/-- Writing back what stands at an index changes nothing. -/
theorem put_self (f : Byte → Byte) (i : Byte) : Spec.put f i (f i) = f := by
  funext x
  unfold Spec.put
  split
  · rw [‹x = i›]
  · rfl

/-- One move: `f` has a hole at `i` that waits for `v`. Filling it from `j` leaves the hole at `j`, and amounts to an exchange
of the two indices; this holds for `i = j` too. -/
theorem put_move (f : Byte → Byte) (i j v : Byte) :
    Spec.put (Spec.put f i (f j)) j v = Spec.put f i v ∘ Equiv.swap i j := by
  funext x
  simp only [Spec.put, Function.comp_apply, Equiv.swap_apply_def]
  split_ifs <;> simp_all

/-! ## The four moves as a permutation of the indices -/

/-- The indices of the moves, in the order the bytes travel against (S3 to S7). -/
def moveIndices (s : State) : List Byte := [s.right, s.pride, s.left, s.radix]

/-- S3 to S7 as writes to PV: each move reads PV as the moves before it left it (R82, R85). -/
theorem fourMoves_pv (s : State) :
    (fourMoves s).pv =
      let pv4 := Memory.write s.pv s.right (Memory.read s.pv s.pride)
      let pv5 := Memory.write pv4 s.pride (Memory.read pv4 s.left)
      let pv6 := Memory.write pv5 s.left (Memory.read pv5 s.radix)
      Memory.write pv6 s.radix (Memory.read s.pv s.right) := rfl

/-- S3 to S7 over plain functions: three moves of the hole that S3 opened at `right`, closed at `radix` (R82). -/
theorem read_fourMoves (s : State) :
    Memory.read (fourMoves s).pv = Memory.read s.pv ∘ (moveIndices s).formPerm := by
  simp only [fourMoves_pv, read_write_eq_put]
  rw [put_move, put_move, put_move, put_self]
  rfl

/-- The moves keep a bijection, in every coincidence of the indices (R85). -/
theorem isPermutation_fourMoves {s : State} (h : isPermutation s.pv) : isPermutation (fourMoves s).pv := by
  rw [isPermutation, read_fourMoves]
  exact h.comp (Equiv.bijective _)

/-! ## The table of R85 -/

/-- A memory rearranged along a cycle of indices: each index gets the byte at the next one, and the last that at the first. -/
theorem effect_of_formPerm {m m' : Memory} {l : List Byte} (hl : l.Nodup)
    (h : Memory.read m' = Memory.read m ∘ l.formPerm) : Spec.effect m m' (l.zip (l.rotate 1)) := by
  have hlen : (l.rotate 1).length = l.length := l.length_rotate 1
  constructor
  · intro p hp
    obtain ⟨i, hi, rfl⟩ := List.getElem_of_mem hp
    rw [h]
    simp [List.formPerm_apply_getElem l hl, List.getElem_rotate]
  · intro i hi
    rw [List.map_fst_zip hlen.ge] at hi
    rw [h, Function.comp_apply, List.formPerm_apply_of_notMem hi]

/-- The moves rotate the entries of a shorter cycle that is the same permutation. -/
theorem effect_fourMoves {s : State} {l : List Byte} (hl : l.Nodup) (h : (moveIndices s).formPerm = l.formPerm) :
    Spec.effect s.pv (fourMoves s).pv (l.zip (l.rotate 1)) :=
  effect_of_formPerm hl (by rw [read_fourMoves, h])

/-- A closed triangle of exchanges is the exchange that its first corner takes no part in. -/
theorem formPerm_triangle {a b c : Byte} (h : [a, b, c].Nodup) : [a, b, c, a].formPerm = [b, c].formPerm := by
  have hrotate : [b, c, a].formPerm = [a, b, c].formPerm := List.formPerm_rotate_one [a, b, c] h
  rw [List.formPerm_cons_cons, hrotate, List.formPerm_cons_cons a b, Equiv.swap_mul_self_mul]

/-- Settles O17: in each case the path of the moves along the four indices is shortened, where it stays at an index, goes there
and back, or runs around a triangle, to a cycle of different indices. -/
theorem movesPermuteInEveryCoincidence : Obligations.MovesPermuteInEveryCoincidence := by
  intro s
  refine ⟨⟨fun h => effect_fourMoves h rfl, ?_, ?_, ?_, ?_, ?_, ?_, ?_, ?_, ?_, ?_, ?_, ?_, ?_, ?_⟩,
    isPermutation_fourMoves⟩
  -- Two of the indices are equal.
  · intro hrp h
    exact effect_fourMoves h (by simp [moveIndices, hrp, ← Equiv.Perm.one_def])
  · intro hpl h
    exact effect_fourMoves h (by simp [moveIndices, hpl, ← Equiv.Perm.one_def])
  · intro hlx h
    exact effect_fourMoves h (by simp [moveIndices, hlx, ← Equiv.Perm.one_def])
  · intro hrx h
    exact effect_fourMoves h.of_cons (by rw [moveIndices, ← hrx, formPerm_triangle h])
  · intro hrl h
    have hdistinct : [s.right, s.radix].Nodup := h.sublist (by simp)
    exact effect_fourMoves hdistinct (by simp [moveIndices, hrl, Equiv.swap_comm])
  · intro hpx h
    have hdistinct : [s.right, s.pride].Nodup := h.sublist (by simp)
    exact effect_fourMoves hdistinct (by simp [moveIndices, hpx, Equiv.swap_comm])
  -- Two pairs of the indices are equal.
  · intro hrp hlx h
    have hdistinct : [s.right, s.left].Nodup := by simpa using h
    exact effect_fourMoves hdistinct (by simp [moveIndices, hrp, hlx, ← Equiv.Perm.one_def])
  · intro hrl hpx h
    have hdistinct : [s.right, s.pride].Nodup := by simpa using h
    exact effect_fourMoves hdistinct (by simp [moveIndices, hrl, hpx, Equiv.swap_comm])
  · intro hrx hpl _
    exact effect_fourMoves .nil (by simp [moveIndices, hrx, hpl, ← Equiv.Perm.one_def, Equiv.swap_comm])
  -- Three of the indices are equal.
  · intro hrp hpl h
    have hdistinct : [s.right, s.radix].Nodup := by simpa using h
    exact effect_fourMoves hdistinct (by simp [moveIndices, hrp, hpl, ← Equiv.Perm.one_def])
  · intro hpl hlx h
    have hdistinct : [s.pride, s.right].Nodup := by simpa using h.symm
    exact effect_fourMoves hdistinct (by simp [moveIndices, hpl, hlx, ← Equiv.Perm.one_def, Equiv.swap_comm])
  · intro hrp hpx _
    exact effect_fourMoves .nil (by simp [moveIndices, hrp, hpx, ← Equiv.Perm.one_def, Equiv.swap_comm])
  · intro hrl hlx _
    exact effect_fourMoves .nil (by simp [moveIndices, hrl, hlx, ← Equiv.Perm.one_def, Equiv.swap_comm])
  -- All are equal.
  · intro hrp hpl hlx
    exact effect_fourMoves .nil (by simp [moveIndices, hrp, hpl, hlx, ← Equiv.Perm.one_def])

end Sys2Proof.Machine
end

section
/-! PROOFS. ENCB and DECB: the transform over plain functions, and how each command of the two ends
(42_byte_transform R80 to R82). -/

namespace Sys2Proof.Machine

/-! ## The command words (R46) -/

/-- A word of format B by number. -/
theorem formatB_toNat (op byte : Byte) : (formatB op byte).toNat = op.toNat * 0x1000000 + byte.toNat := by
  have hhigh : (op ++ (0 : BitVec 16)).toNat = op.toNat * 0x10000 := by
    rw [BitVec.toNat_append, Nat.shiftLeft_eq]
    exact Nat.or_zero _
  rw [formatB, BitVec.toNat_append, ← Nat.shiftLeft_add_eq_or_of_lt byte.isLt, Nat.shiftLeft_eq, hhigh]
  omega

/-! ## The transform over plain functions -/

/-- S3 to S7 over plain functions, write by write (R82). -/
theorem read_fourMoves_eq_put (s : State) :
    Memory.read (fourMoves s).pv =
      let pv4 := Spec.put (Memory.read s.pv) s.right (Memory.read s.pv s.pride)
      let pv5 := Spec.put pv4 s.pride (pv4 s.left)
      let pv6 := Spec.put pv5 s.left (pv5 s.radix)
      Spec.put pv6 s.radix (Memory.read s.pv s.right) := by
  simp only [fourMoves_pv, read_write_eq_put]

/-- S8 reads PV after the moves (R82, R83). -/
theorem transform_chasm (s : State) :
    (transform s).chasm = s.chasm + Memory.read (transform s).pv (Memory.read s.pv s.right) := rfl

/-- S9 to S11 as a function of the handle that S8 leaves (R82). -/
def mixOf (h : Spec.Handle) : Byte :=
  let a := h.pv h.pride + h.pv h.radix
  let b := h.pv h.left + h.pv h.right + h.pv h.chasm
  h.pv a ^^^ h.pv (h.pv b)

/-- The machine forms mix from the handle after S8. -/
theorem transform_mix (s : State) : (transform s).transients.mix = mixOf (Spec.handleOf (transform s)) := rfl

/-- The step over plain functions forms mix from the handle after S8. -/
theorem step_mix (h : Spec.Handle) : (Spec.step h).2 = mixOf (Spec.step h).1 := by
  simp only [Spec.step, mixOf]

/-- S1 to S11: the handle after the step, and mix (R82). -/
theorem transform_spec (s : State) :
    Spec.handleOf (transform s) = (Spec.step (Spec.handleOf s)).1 ∧
      (transform s).transients.mix = (Spec.step (Spec.handleOf s)).2 := by
  have hpv : Memory.read (transform s).pv = (Spec.step (Spec.handleOf s)).1.pv := read_fourMoves_eq_put (indexUpdate s)
  have hhandle : Spec.handleOf (transform s) = (Spec.step (Spec.handleOf s)).1 := by
    rw [Spec.handleOf, transform_chasm, hpv]
    rfl
  exact ⟨hhandle, by rw [transform_mix, step_mix, hhandle]⟩

/-- ENCB-body over plain functions: the new handle, and the new right as the output byte (R80). -/
theorem encbBody_spec (byte : Byte) (s : State) :
    Spec.handleOf (encbBody byte s) = (Spec.enc byte (Spec.handleOf s)).1 ∧
      (encbBody byte s).right = (Spec.enc byte (Spec.handleOf s)).2 := by
  obtain ⟨hhandle, hmix⟩ := transform_spec s
  rw [Spec.enc, ← hhandle, ← hmix]
  exact ⟨rfl, rfl⟩

/-- DECB's body over plain functions: the new handle, and the new left as the output byte (R81). -/
theorem decbBody_spec (byte : Byte) (s : State) :
    Spec.handleOf (decbBody byte s) = (Spec.dec byte (Spec.handleOf s)).1 ∧
      (decbBody byte s).left = (Spec.dec byte (Spec.handleOf s)).2 := by
  obtain ⟨hhandle, hmix⟩ := transform_spec s
  rw [Spec.dec, ← hhandle, ← hmix]
  exact ⟨rfl, rfl⟩

/-! ## How the two commands end -/

/-- All that a command without error does when it ends (R53): its response words, and transients at zero. -/
theorem respond_eq (out : List Byte) (s : State) :
    respond out s = { s with transients := .zero, rsp := Spec.okWords s.mode out } := by
  rw [← responseWords_ok]
  rfl

/-- One output byte is one data word with LAST (R53). -/
theorem okWords_singleton (m : Mode) (b : Byte) : Spec.okWords m [b] = [Spec.dataWord m true b] := rfl

/-- In a session ENCB runs its body and answers the new right (R80). -/
theorem exec_encb {s : State} (h : s.mode ≠ .idle) (byte : Byte) :
    exec (.encb byte) s = .next (respond [(encbBody byte s).right] (encbBody byte s)) :=
  congrArg Host.Outcome.next (if_neg h)

/-- In a session DECB runs its body and answers the new left (R81). -/
theorem exec_decb {s : State} (h : s.mode ≠ .idle) (byte : Byte) :
    exec (.decb byte) s = .next (respond [(decbBody byte s).left] (decbBody byte s)) :=
  congrArg Host.Outcome.next (if_neg h)

/-- In IDLE a command with a MODE test answers NoSession and changes nothing else (R108, R110). -/
theorem inSession_idle {s : State} (h : s.mode = .idle) (k : State → State) :
    inSession s k = { s with transients := .zero, rsp := [Spec.statusWord 3 .idle] } := by
  rw [← h]
  exact (if_pos h).trans (raise_eq .noSession s)

/-- Settles O15: in a session the body of ENCB is `Spec.enc` on the handle, and keeps all but the handle and transients. -/
theorem encbRunsTheTransform : Obligations.EncbRunsTheTransform := by
  intro byte s
  refine ⟨formatB_toNat 0x04 byte, fun hsession => ?_, fun hidle => congrArg Host.Outcome.next (inSession_idle hidle _)⟩
  obtain ⟨hhandle, hout⟩ := encbBody_spec byte s
  refine ⟨_, exec_encb hsession byte, hhandle, fun _ => rfl, ?_⟩
  rw [respond_eq, okWords_singleton, hout]
  rfl

/-- Settles O16: in a session the body of DECB is `Spec.dec` on the handle, and keeps all but the handle and transients. -/
theorem decbRunsTheTransform : Obligations.DecbRunsTheTransform := by
  intro byte s
  refine ⟨formatB_toNat 0x05 byte, fun hsession => ?_, fun hidle => congrArg Host.Outcome.next (inSession_idle hidle _)⟩
  obtain ⟨hhandle, hout⟩ := decbBody_spec byte s
  refine ⟨_, exec_decb hsession byte, hhandle, fun _ => rfl, ?_⟩
  rw [respond_eq, okWords_singleton, hout]
  rfl

end Sys2Proof.Machine
end

section
/-! PROOFS. The peer: of two engines with the same handle, one recovers what the other encrypts, byte by byte and so in whole
sequences; and KEY gives any two engines the same handle (42_byte_transform R87; 40_key_schedule R74). -/

namespace Sys2Proof.Machine

/-! ## Reading the data words of a response -/

/-- DATA reads back the output byte (R52). -/
@[simp] theorem rspDataField_dataWord (m : Mode) (last : Bool) (b : Byte) :
    rspDataField (Spec.dataWord m last b) = b := by
  rw [← responseWord_some]
  exact BitVec.extractLsb'_append_eq_right

/-- A data word has DV = 1 (R52). -/
@[simp] theorem rspDv_dataWord (m : Mode) (last : Bool) (b : Byte) : rspDv (Spec.dataWord m last b) = true := by
  rw [← responseWord_some, rspDv_responseWord]
  rfl

/-- A status word without error has DV = 0 (R52). -/
@[simp] theorem rspDv_statusWord (m : Mode) : rspDv (Spec.statusWord 0 m) = false := by
  cases m <;> decide

/-! ## One byte in either direction -/

/-- The work of one byte command: ENCB where the first component is true, DECB where it is false (R93). -/
def byteBody (op : Bool × Byte) (s : State) : State := if op.1 then encbBody op.2 s else decbBody op.2 s

/-- The byte it puts out: the input under mix, in both directions (R80, R81). -/
def outputByte (op : Bool × Byte) (s : State) : Byte := op.2 ^^^ (transform s).transients.mix

/-- In a session a byte command runs its body and answers one data word. -/
theorem exec_byteCommand {s : State} (h : s.mode ≠ .idle) (op : Bool × Byte) :
    exec (Spec.byteCommand op) s = .next (respond [outputByte op s] (byteBody op s)) := by
  obtain ⟨direction, byte⟩ := op
  cases direction with
  | true => exact exec_encb h byte
  | false => exact exec_decb h byte

/-- A byte command keeps MODE (R109). -/
theorem byteBody_mode (op : Bool × Byte) (s : State) : (byteBody op s).mode = s.mode := by
  obtain ⟨direction, byte⟩ := op
  cases direction <;> rfl

/-- The step is a function of the handle: transients, MODE, KEYBUF and the ports play no part (R82). -/
theorem transform_congr {s s' : State} (h : Spec.sameHandle s s') :
    Spec.sameHandle (transform s) (transform s') ∧ (transform s).transients.mix = (transform s').transients.mix := by
  obtain ⟨hpv, hradix, hpride, hchasm, hleft, hright⟩ := h
  have hhandle : Spec.handleOf s = Spec.handleOf s' := by
    simp only [Spec.handleOf, hpv, hradix, hpride, hchasm, hleft, hright]
  obtain ⟨hstep, hmix⟩ := transform_spec s
  obtain ⟨hstep', hmix'⟩ := transform_spec s'
  rw [hhandle] at hstep hmix
  have hnext := hstep.trans hstep'.symm
  simp only [Spec.handleOf, Spec.Handle.mk.injEq] at hnext
  have hmoves : (transform s).pv = (transform s').pv := by
    simp only [transform_pv, fourMoves_pv, indexUpdate_pv, indexUpdate_radix, indexUpdate_pride, indexUpdate_left,
      indexUpdate_right, pvAt, hpv, hradix, hpride, hleft, hright]
  exact ⟨⟨hmoves, hnext.2⟩, hmix.trans hmix'.symm⟩

/-- R87: the opposite operation on the output byte puts out the input byte and leaves the same handle. -/
theorem byteBody_peer {s s' : State} (h : Spec.sameHandle s s') (op : Bool × Byte) :
    Spec.sameHandle (byteBody op s) (byteBody (!op.1, outputByte op s) s') ∧
      outputByte (!op.1, outputByte op s) s' = op.2 := by
  obtain ⟨⟨hpv, hradix, hpride, hchasm, -, -⟩, hmix⟩ := transform_congr h
  have hinput : outputByte (!op.1, outputByte op s) s' = op.2 := by
    simp only [outputByte, hmix, BitVec.xor_assoc, BitVec.xor_self, BitVec.xor_zero]
  refine ⟨?_, hinput⟩
  obtain ⟨direction, byte⟩ := op
  cases direction with
  | true => exact ⟨hpv, hradix, hpride, hchasm, hinput.symm, rfl⟩
  | false => exact ⟨hpv, hradix, hpride, hchasm, rfl, hinput.symm⟩

/-! ## Sequences of commands -/

/-- Where the next command of a sequence starts: transients cleared, and the response of the last one taken. -/
def nextStart (s : State) : State := { clearTransients s with rsp := [] }

@[simp] theorem nextStart_mode (s : State) : (nextStart s).mode = s.mode := rfl

/-- The end of a command leaves the handles as they are. -/
theorem sameHandle_nextStart {s s' : State} (h : Spec.sameHandle s s') :
    Spec.sameHandle (nextStart s) (nextStart s') := h

/-- A command without error at the head of a sequence puts its response words at the head of theirs. -/
theorem execAll_cons_respond {i : Instr} {is : List Instr} {s t u : State} {out : List Byte} {ws : List RspWord}
    (h : exec i s = .next (respond out t)) (hrest : execAll is (nextStart t) = .next (u, ws)) :
    execAll (i :: is) s = .next (u, Spec.okWords t.mode out ++ ws) := by
  rw [execAll_cons h hrest, respond_rsp, responseWords_ok]

/-- What the peer does with each output byte: the opposite operation (R87, R93). -/
def peerOps (ops : List (Bool × Byte)) (out : List Byte) : List (Bool × Byte) :=
  List.zipWith (fun op c => (!op.1, c)) ops out

/-- A byte command at the head of a sequence puts its data word at the head of the response words. -/
theorem execAll_byteCommand_cons {s t : State} (h : s.mode ≠ .idle) (op : Bool × Byte) {is : List Instr}
    {ws : List RspWord} (hrest : execAll is (nextStart (byteBody op s)) = .next (t, ws)) :
    execAll (Spec.byteCommand op :: is) s = .next (t, Spec.dataWord s.mode true (outputByte op s) :: ws) := by
  rw [execAll_cons_respond (exec_byteCommand h op) hrest, byteBody_mode, okWords_singleton, List.singleton_append]

/-- R87 for whole sequences: the peer's output bytes are the inputs, and the handles are the same again. -/
theorem execAll_peerOps (ops : List (Bool × Byte)) {s s' : State} (h : Spec.sameHandle s s') (hm : s.mode ≠ .idle)
    (hm' : s'.mode ≠ .idle) :
    ∃ t t' out,
      execAll (ops.map Spec.byteCommand) s = .next (t, out.map (Spec.dataWord s.mode true)) ∧ out.length = ops.length ∧
      execAll ((peerOps ops out).map Spec.byteCommand) s' =
        .next (t', (ops.map Prod.snd).map (Spec.dataWord s'.mode true)) ∧ Spec.sameHandle t t' := by
  induction ops generalizing s s' with
  | nil => exact ⟨s, s', [], rfl, rfl, rfl, h⟩
  | cons op ops ih =>
    obtain ⟨hhandle, hinput⟩ := byteBody_peer h op
    obtain ⟨t, t', out, hrun, hlen, hrun', hend⟩ := ih (sameHandle_nextStart hhandle)
      (by rwa [nextStart_mode, byteBody_mode]) (by rwa [nextStart_mode, byteBody_mode])
    rw [nextStart_mode, byteBody_mode] at hrun hrun'
    have hpeer := execAll_byteCommand_cons hm' _ hrun'
    rw [hinput] at hpeer
    exact ⟨t, t', outputByte op s :: out, execAll_byteCommand_cons hm op hrun, congrArg (· + 1) hlen, hpeer, hend⟩

/-- The peer's commands on response words are those on the output bytes in them. -/
theorem peerCommands_dataWord (ops : List (Bool × Byte)) (m : Mode) (out : List Byte) :
    Spec.peerCommands ops (out.map (Spec.dataWord m true)) = (peerOps ops out).map Spec.byteCommand := by
  simp [Spec.peerCommands, peerOps, List.zipWith_map_right, List.map_zipWith]

/-! ## The bytes among response words -/

/-- Data words carry their bytes. -/
theorem outputBytes_dataWord (m : Mode) (out : List Byte) : Spec.outputBytes (out.map (Spec.dataWord m true)) = out := by
  simp [Spec.outputBytes, List.filter_map, Function.comp_def]

/-- Response words of two sequences carry the bytes of both. -/
theorem outputBytes_append (ws vs : List RspWord) :
    Spec.outputBytes (ws ++ vs) = Spec.outputBytes ws ++ Spec.outputBytes vs := by
  simp [Spec.outputBytes]

/-! ## KEY -/

/-- LDK stores one byte and answers without output, in every MODE (R63). -/
theorem exec_ldk (idx byte : Byte) (s : State) :
    exec (.ldk idx byte) s = .next (respond [] { s with keybuf := Memory.write s.keybuf idx byte }) := rfl

/-- The supply of KEY: from index `k` on KEYBUF holds the bytes loaded, below it stays, and every response is a status
word (R56, R63). -/
theorem execAll_keySupply (bs : List Byte) {k : Nat} (h : k + bs.length ≤ 256) (s : State) :
    ∃ t, execAll (keySupply k bs) s = .next (t, List.replicate bs.length (Spec.statusWord 0 s.mode)) ∧
      (∀ j : Byte, j.toNat < k → Memory.read t.keybuf j = Memory.read s.keybuf j) ∧
      ∀ i (hi : i < bs.length), Memory.read t.keybuf (BitVec.ofNat 8 (k + i)) = bs[i] := by
  induction bs generalizing k s with
  | nil => exact ⟨s, rfl, fun _ _ => rfl, fun _ hi => absurd hi (Nat.not_lt_zero _)⟩
  | cons b bs ih =>
    rw [List.length_cons] at h
    have hk : (BitVec.ofNat 8 k).toNat = k := by rw [BitVec.toNat_ofNat, Nat.mod_eq_of_lt (by omega)]
    obtain ⟨t, hrun, hbelow, hloaded⟩ := ih (k := k + 1) (by omega)
      (nextStart { s with keybuf := Memory.write s.keybuf (BitVec.ofNat 8 k) b })
    refine ⟨t, execAll_cons_respond (exec_ldk _ b s) hrun, fun j hj => ?_, fun i hi => ?_⟩
    · have hne : j ≠ BitVec.ofNat 8 k := by
        rintro rfl
        omega
      exact (hbelow j (by omega)).trans (Memory.read_write_other _ b hne)
    · cases i with
      | zero => exact (hbelow _ (by rw [Nat.add_zero, hk]; omega)).trans (Memory.read_write_same _ _ b)
      | succ i =>
        rw [← Nat.succ_add_eq_add_succ]
        exact hloaded i (Nat.lt_of_succ_lt_succ hi)

/-- The length of a key fits the field of INITK (R47, R48). -/
theorem toNat_keyLength {n : Nat} (h : n ≤ 256) : (BitVec.ofNat 16 n).toNat = n := by
  rw [BitVec.toNat_ofNat, Nat.mod_eq_of_lt (by omega)]

/-- KEY runs the key schedule on a key buffer that holds the key, and every response is a status word (R56, R66). -/
theorem execAll_key {key : List Byte} (hpos : 1 ≤ key.length) (hlen : key.length ≤ 256) (s : State) :
    ∃ u, execAll (Pseudo.key key).expand s =
        .next (nextStart (keySchedule (BitVec.ofNat 16 key.length) u),
          List.replicate key.length (Spec.statusWord 0 s.mode) ++ [Spec.statusWord 0 .keyed]) ∧
      ∀ i (hi : i < key.length), Memory.read u.keybuf (BitVec.ofNat 8 i) = key[i] := by
  have hnat := toNat_keyLength hlen
  obtain ⟨u, hsupply, -, hloaded⟩ := execAll_keySupply key (k := 0) (by omega) s
  simp only [Nat.zero_add] at hloaded
  have hinitk := execAll_cons_respond (exec_initk u (hnat.symm ▸ hpos) (hnat.symm ▸ hlen)) (execAll_nil _)
  exact ⟨u, execAll_append hsupply hinitk, hloaded⟩

/-- KEY answers no output byte. -/
theorem outputBytes_key (n : Nat) (m : Mode) :
    Spec.outputBytes (List.replicate n (Spec.statusWord 0 m) ++ [Spec.statusWord 0 .keyed]) = [] := by
  simp [Spec.outputBytes]

/-- INITK leaves the same handle in two engines whose key buffers agree on the key (R74 b). -/
theorem sameHandle_keySchedule {len : BitVec 16} {s s' : State} (hpos : 1 ≤ len.toNat) (hlen : len.toNat ≤ 256)
    (hkey : ∀ k : Byte, k.toNat < len.toNat → Memory.read s.keybuf k = Memory.read s'.keybuf k) :
    Spec.sameHandle (keySchedule len s) (keySchedule len s') := by
  have hhandle := handleOf_keySchedule_congr hpos hlen hkey
  simp only [Spec.handleOf, Spec.Handle.mk.injEq] at hhandle
  obtain ⟨hread, hregisters⟩ := hhandle
  exact ⟨Memory.wf_ext (wf_keySchedule_pv len s) (wf_keySchedule_pv len s') (congrFun hread), hregisters⟩

/-- KEY starts a session with the same handle on any two engines, without an output byte (R56, R74). -/
theorem execAll_key_sameHandle {key : List Byte} (hpos : 1 ≤ key.length) (hlen : key.length ≤ 256) (s s' : State) :
    ∃ t t' words words',
      execAll (Pseudo.key key).expand s = .next (t, words) ∧ execAll (Pseudo.key key).expand s' = .next (t', words') ∧
      Spec.outputBytes words = [] ∧ Spec.outputBytes words' = [] ∧ Spec.sameHandle t t' ∧
      t.mode = .keyed ∧ t'.mode = .keyed := by
  have hnat := toNat_keyLength hlen
  obtain ⟨u, hrun, hloaded⟩ := execAll_key hpos hlen s
  obtain ⟨u', hrun', hloaded'⟩ := execAll_key hpos hlen s'
  have hkey (k : Byte) (hk : k.toNat < (BitVec.ofNat 16 key.length).toNat) :
      Memory.read u.keybuf k = Memory.read u'.keybuf k := by
    rw [hnat] at hk
    have hread := (hloaded k.toNat hk).trans (hloaded' k.toNat hk).symm
    rwa [BitVec.ofNat_toNat, BitVec.setWidth_eq] at hread
  have hkeyed (v : State) : (nextStart (keySchedule (BitVec.ofNat 16 key.length) v)).mode = .keyed := by
    obtain ⟨hmode, -⟩ := keySchedule_frame (BitVec.ofNat 16 key.length) v
    rw [nextStart_mode, hmode]
  exact ⟨_, _, _, _, hrun, hrun', outputBytes_key _ _, outputBytes_key _ _,
    sameHandle_nextStart (sameHandle_keySchedule (hnat.symm ▸ hpos) (hnat.symm ▸ hlen) hkey), hkeyed u, hkeyed u'⟩

/-! ## The round trip -/

/-- ENCS is a sequence of byte commands in the one direction (R56). -/
theorem expand_encs (plain : List Byte) : (Pseudo.encs plain).expand = (plain.map (true, ·)).map Spec.byteCommand := by
  simp [Pseudo.expand, Spec.byteCommand]

/-- DECS of the output bytes of ENCS is what the peer does with them (R56, R87). -/
theorem expand_decs {plain out : List Byte} (h : out.length = plain.length) :
    (Pseudo.decs out).expand = (peerOps (plain.map (true, ·)) out).map Spec.byteCommand := by
  have hops : peerOps (plain.map (true, ·)) out = out.map (false, ·) :=
    List.ext_getElem (by simp [peerOps, h]) fun i _ _ => by simp [peerOps]
  simp [hops, Pseudo.expand, Spec.byteCommand]

/-- R87 in commands: KEY brings two engines to the same handle, from which DECS of what ENCS puts out recovers the text. -/
theorem execAll_encs_decs {key : List Byte} (hpos : 1 ≤ key.length) (hlen : key.length ≤ 256) (plain : List Byte)
    (s s' : State) :
    ∃ t t' words words',
      execAll ((Pseudo.key key).expand ++ (Pseudo.encs plain).expand) s = .next (t, words) ∧
      execAll ((Pseudo.key key).expand ++ (Pseudo.decs (Spec.outputBytes words)).expand) s' = .next (t', words') ∧
      Spec.outputBytes words' = plain ∧ Spec.sameHandle t t' := by
  obtain ⟨u, u', ws, ws', hkey, hkey', hws, hws', hhandle, hm, hm'⟩ := execAll_key_sameHandle hpos hlen s s'
  obtain ⟨t, t', out, hrun, hout, hrun', hend⟩ :=
    execAll_peerOps (plain.map (true, ·)) hhandle (by simp [hm]) (by simp [hm'])
  have hencs := execAll_append hkey hrun
  have hdecs := execAll_append hkey' hrun'
  rw [← expand_encs] at hencs
  rw [← expand_decs (by simpa using hout)] at hdecs
  have hwords : Spec.outputBytes (ws ++ out.map (Spec.dataWord u.mode true)) = out := by
    rw [outputBytes_append, hws, outputBytes_dataWord, List.nil_append]
  rw [← hwords] at hdecs
  refine ⟨t, t', _, _, hencs, hdecs, ?_, hend⟩
  rw [outputBytes_append, hws', outputBytes_dataWord]
  simp [Function.comp_def]

/-- Settles O19: from equal handles the peer recovers byte after byte, and KEY gives any two engines equal handles. -/
theorem peerRecoversEveryByte : Obligations.PeerRecoversEveryByte := by
  refine ⟨fun key plain s s' hpos hlen => execAll_encs_decs hpos hlen plain s s', fun ops s s' hhandle hm hm' => ?_⟩
  obtain ⟨t, t', out, hrun, hlen, hrun', hend⟩ := execAll_peerOps ops hhandle hm hm'
  rw [← peerCommands_dataWord ops s.mode] at hrun'
  exact ⟨t, t', _, _, hrun, by simp [hlen], hrun', by simp, by simp [Function.comp_def], hend⟩

end Sys2Proof.Machine
end

section
/-! PROOFS. FINAL: the whitening pass and the squeeze are runs of ENCB-bodies, over plain functions and as commands
(43_digest_finalize R95, R96). -/

namespace Sys2Proof.Machine

/-! ## The command word (R46) -/

/-- A word of format L by number. -/
theorem formatL_toNat (op : Byte) (len : BitVec 16) : (formatL op len).toNat = op.toNat * 0x1000000 + len.toNat := by
  obtain ⟨hop, hzero⟩ : opField (formatL op len) = op ∧ zeroField (formatL op len) = 0 :=
    Laws.OpcodeField.fields_of_append op 0 len
  have hlen : lenField (formatL op len) = len := BitVec.extractLsb'_append_eq_right
  have hopNat := hop ▸ opField_toNat (formatL op len)
  have hzeroNat : 0 = _ := hzero ▸ zeroField_toNat (formatL op len)
  have hlenNat := hlen ▸ lenField_toNat (formatL op len)
  omega

/-! ## A run of ENCB-bodies, each from the end of a command -/

/-- ENCB-body byte after byte, transients cleared and the response taken after each (R91): the state and the outputs. -/
def encbRun : List Byte → State → State × List Byte
  | [], s => (s, [])
  | b :: bs, s =>
    let r := encbRun bs (nextStart (encbBody b s))
    (r.1, (encbBody b s).right :: r.2)

theorem encbRun_cons (b : Byte) (bs : List Byte) (s : State) :
    encbRun (b :: bs) s =
      ((encbRun bs (nextStart (encbBody b s))).1,
        (encbBody b s).right :: (encbRun bs (nextStart (encbBody b s))).2) := rfl

/-- Two runs one after the other are one run (R91). -/
theorem encbRun_append (as bs : List Byte) (s : State) :
    encbRun (as ++ bs) s = ((encbRun bs (encbRun as s).1).1, (encbRun as s).2 ++ (encbRun bs (encbRun as s).1).2) := by
  induction as generalizing s with
  | nil => rfl
  | cons a as ih => rw [List.cons_append, encbRun_cons, ih, encbRun_cons, List.cons_append]

/-- A run puts out one byte for each byte it takes. -/
theorem encbRun_length (bs : List Byte) (s : State) : (encbRun bs s).2.length = bs.length := by
  induction bs generalizing s with
  | nil => rfl
  | cons b bs ih => rw [encbRun_cons, List.length_cons, ih, List.length_cons]

/-- A run keeps MODE (R109). -/
@[simp] theorem encbRun_mode (bs : List Byte) (s : State) : (encbRun bs s).1.mode = s.mode := by
  induction bs generalizing s with
  | nil => rfl
  | cons b bs ih => rw [encbRun_cons, ih, nextStart_mode, encbBody_mode]

/-- A run over plain functions: the new handle, and the outputs in order (R80, R91). -/
theorem encbRun_spec (bs : List Byte) (s : State) :
    Spec.handleOf (encbRun bs s).1 = (Spec.encs bs (Spec.handleOf s)).1 ∧
      (encbRun bs s).2 = (Spec.encs bs (Spec.handleOf s)).2 := by
  induction bs generalizing s with
  | nil => exact ⟨rfl, rfl⟩
  | cons b bs ih =>
    obtain ⟨hbody, hright⟩ := encbBody_spec b s
    have hnext : Spec.handleOf (nextStart (encbBody b s)) = (Spec.enc b (Spec.handleOf s)).1 := hbody
    obtain ⟨hhandle, hout⟩ := ih (nextStart (encbBody b s))
    rw [hnext] at hhandle hout
    exact ⟨hhandle, congrArg₂ List.cons hright hout⟩

/-- In a session a sequence of ENCB commands is a run, and answers one data word for each output (R80, R91). -/
theorem execAll_encbs (bs : List Byte) {s : State} (h : s.mode ≠ .idle) :
    execAll (bs.map .encb) s = .next ((encbRun bs s).1, (encbRun bs s).2.map (Spec.dataWord s.mode true)) := by
  induction bs generalizing s with
  | nil => rfl
  | cons b bs ih =>
    have hrest := ih (s := nextStart (encbBody b s)) h
    rw [List.map_cons, execAll_cons_respond (exec_encb h b) hrest, okWords_singleton]
    rfl

/-! ## The work of FINAL as a run -/

/-- Where the next command starts does not depend on the transients (R23). -/
theorem nextStart_of_transients (x : Transients) (s : State) : nextStart { s with transients := x } = nextStart s := rfl

/-- What ENCB-body leaves for the next command (R80). -/
theorem nextStart_encbBody (b : Byte) (s : State) :
    nextStart (encbBody b s) =
      { nextStart s with
        pv := (transform s).pv, radix := (transform s).radix, pride := (transform s).pride,
        chasm := (transform s).chasm, left := b, right := b ^^^ (transform s).transients.mix } := rfl

/-- ENCB-body does not read the transients it starts with: from states that agree outside transients and responses it leads
to such states, with the same output (R23, R80). -/
theorem encbBody_congr {s s' : State} (h : nextStart s = nextStart s') (b : Byte) :
    nextStart (encbBody b s) = nextStart (encbBody b s') ∧ (encbBody b s).right = (encbBody b s').right := by
  have hhandle : Spec.sameHandle (nextStart s) (nextStart s') := by
    rw [h]
    exact ⟨rfl, rfl, rfl, rfl, rfl, rfl⟩
  obtain ⟨⟨hpv, hradix, hpride, hchasm, -, -⟩, hmix⟩ := transform_congr (s := s) (s' := s') hhandle
  constructor
  · rw [nextStart_encbBody, nextStart_encbBody, h, hpv, hradix, hpride, hchasm, hmix]
  · rw [encbBody_right, encbBody_right, hmix]

/-- The transients left by earlier lines of a command play no part in its next ENCB-body (R23, R95). -/
theorem encbBody_of_transients (b : Byte) (x : Transients) (s : State) :
    nextStart (encbBody b { s with transients := x }) = nextStart (encbBody b (nextStart s)) ∧
      (encbBody b { s with transients := x }).right = (encbBody b (nextStart s)).right := by
  have hstart : nextStart { s with transients := x } = nextStart (nextStart s) := nextStart_of_transients x s
  exact encbBody_congr hstart b

/-- Nor do they play a part in a run of at least one byte. -/
theorem encbRun_cons_congr {s s' : State} (h : nextStart s = nextStart s') (b : Byte) (bs : List Byte) :
    encbRun (b :: bs) s = encbRun (b :: bs) s' := by
  obtain ⟨hstart, hright⟩ := encbBody_congr h b
  rw [encbRun_cons, hstart, hright, encbRun_cons]

/-- The bytes k-1 down to 0. -/
def downFrom (k : Nat) : List Byte := (List.range k).reverse.map (BitVec.ofNat 8)

theorem downFrom_length (k : Nat) : (downFrom k).length = k := by simp [downFrom]

theorem downFrom_succ (k : Nat) : downFrom (k + 1) = BitVec.ofNat 8 k :: downFrom k := by
  simp [downFrom, List.range_succ]

/-- The whitening sequence counts down from 255 (R7). -/
theorem whitenSeq_eq_downFrom : Spec.whitenSeq = downFrom 256 := rfl

/-- One step of the whitening pass (R95). -/
theorem whiten_succ (k : Nat) (s : State) :
    whiten (k + 1) s =
      whiten k (encbBody (BitVec.ofNat 8 k) { s with transients.w := BitVec.ofNat 9 k }) := by
  have hbyte : (BitVec.ofNat 9 k).setWidth 8 = BitVec.ofNat 8 k := by simp
  rw [← hbyte, whiten]

/-- The whitening pass runs the bytes k-1 down to 0 (R95). -/
theorem nextStart_whiten (k : Nat) (s : State) : nextStart (whiten k s) = (encbRun (downFrom k) (nextStart s)).1 := by
  induction k generalizing s with
  | zero => rfl
  | succ k ih =>
    obtain ⟨hbody, -⟩ := encbBody_of_transients (BitVec.ofNat 8 k) { s.transients with w := BitVec.ofNat 9 k } s
    rw [whiten_succ, ih, hbody, downFrom_succ, encbRun_cons]

/-- One step of the squeeze (R95). -/
theorem squeeze_succ (k : Nat) (s : State) :
    squeeze (k + 1) s =
      let s' := encbBody 0 { s with transients.n := s.transients.n + 1 }
      ((squeeze k s').1, s'.right :: (squeeze k s').2) := rfl

/-- The squeeze runs as many zeros as it takes steps (R95). -/
theorem squeeze_eq_encbRun (k : Nat) (s : State) :
    nextStart (squeeze k s).1 = (encbRun (List.replicate k 0) (nextStart s)).1 ∧
      (squeeze k s).2 = (encbRun (List.replicate k 0) (nextStart s)).2 := by
  induction k generalizing s with
  | zero => exact ⟨rfl, rfl⟩
  | succ k ih =>
    obtain ⟨hbody, hright⟩ := encbBody_of_transients 0 { s.transients with n := s.transients.n + 1 } s
    obtain ⟨hstate, hout⟩ := ih (encbBody 0 { s with transients.n := s.transients.n + 1 })
    rw [hbody] at hstate hout
    rw [squeeze_succ, List.replicate_succ, encbRun_cons]
    exact ⟨hstate, congrArg₂ List.cons hright hout⟩

/-- FINAL as runs (R96): the whitening sequence with its outputs dropped, then zeros. -/
def finalRun (n : Nat) (s : State) : State × List Byte :=
  encbRun (List.replicate n 0) (encbRun Spec.whitenSeq s).1

/-- What FINAL does in a session is its two runs (R95, R96). -/
theorem finalBody_eq_finalRun (len : BitVec 16) (s : State) :
    nextStart (finalBody len s).1 = (finalRun len.toNat s).1 ∧ (finalBody len s).2 = (finalRun len.toNat s).2 := by
  have hstart : encbRun Spec.whitenSeq (nextStart s) = encbRun Spec.whitenSeq s := by
    rw [whitenSeq_eq_downFrom, downFrom_succ, encbRun_cons_congr (s := nextStart s) (s' := s) rfl]
  have hwhiten (x : Transients) :
      nextStart { whiten Config.whitenSteps s with transients := x } = (encbRun Spec.whitenSeq s).1 := by
    rw [nextStart_of_transients, nextStart_whiten, ← hstart, whitenSeq_eq_downFrom, Config.whitenSteps]
  rw [finalRun, ← hwhiten]
  exact squeeze_eq_encbRun len.toNat _

/-- FINAL over plain functions: the new handle and the digest (R95). -/
theorem finalBody_spec (len : BitVec 16) (s : State) :
    Spec.handleOf (finalBody len s).1 = (Spec.final len.toNat (Spec.handleOf s)).1 ∧
      (finalBody len s).2 = (Spec.final len.toNat (Spec.handleOf s)).2 := by
  obtain ⟨hstate, hout⟩ := finalBody_eq_finalRun len s
  obtain ⟨hwhiten, -⟩ := encbRun_spec Spec.whitenSeq s
  obtain ⟨hhandle, hbytes⟩ := encbRun_spec (List.replicate len.toNat 0) (encbRun Spec.whitenSeq s).1
  rw [hwhiten] at hhandle hbytes
  exact ⟨(congrArg Spec.handleOf hstate).trans hhandle, hout.trans hbytes⟩

/-- In a session FINAL runs its body and answers the digest (R95). -/
theorem exec_final {s : State} (h : s.mode ≠ .idle) (len : BitVec 16) :
    exec (.final len) s = .next (respond (finalBody len s).2 (finalBody len s).1) :=
  congrArg Host.Outcome.next (if_neg h)

/-- Settles O20: the work of FINAL is `Spec.final` on the handle, and keeps all but the handle and transients. -/
theorem finalWhitensAndSqueezes : Obligations.FinalWhitensAndSqueezes := by
  intro len s
  refine ⟨formatL_toNat 0x06 len, fun hsession => ?_, fun hidle => congrArg Host.Outcome.next (inSession_idle hidle _)⟩
  obtain ⟨hhandle, hout⟩ := finalBody_spec len s
  obtain ⟨⟨hmode, hkeybuf, -, hoffered, hreset, hhost⟩, -⟩ := finalBody_frame len s
  refine ⟨_, exec_final hsession len, hhandle, fun i => ?_, ?_⟩
  · rw [respond_keybuf, hkeybuf]
  · rw [respond_eq, hout, hmode, ← hkeybuf, ← hoffered, ← hreset, ← hhost]

/-! ## FINAL among other commands -/

/-- The words of a response with output carry its bytes (R53). -/
theorem outputBytes_dataWords (m : Mode) (bs : List Byte) : Spec.outputBytes (dataWords m bs) = bs := by
  have hcons (last : Bool) (b : Byte) (ws : List RspWord) :
      Spec.outputBytes (responseWord .ok m last (some b) :: ws) = b :: Spec.outputBytes ws := by
    simp [Spec.outputBytes, responseWord_some]
  fun_induction dataWords m bs with
  | case1 => rfl
  | case2 b => exact hcons true b []
  | case3 b b' bs ih => rw [hcons, ih]

/-- A response without error carries its output bytes (R53). -/
theorem outputBytes_okWords (m : Mode) (out : List Byte) : Spec.outputBytes (Spec.okWords m out) = out := by
  rw [← responseWords_ok]
  cases out with
  | nil => simp [Spec.outputBytes, responseWords]
  | cons b bs => exact outputBytes_dataWords m (b :: bs)

/-- A longer squeeze goes on where a shorter one ends (R96). -/
theorem finalRun_add (n m : Nat) (s : State) :
    finalRun (n + m) s =
      ((encbRun (List.replicate m 0) (finalRun n s).1).1,
        (finalRun n s).2 ++ (encbRun (List.replicate m 0) (finalRun n s).1).2) := by
  simp only [finalRun, List.replicate_add, encbRun_append]

/-- A digest has the length asked for (R95). -/
theorem finalRun_length (n : Nat) (s : State) : (finalRun n s).2.length = n := by
  rw [finalRun, encbRun_length, List.length_replicate]

/-- A longer digest begins with the shorter one (R96). -/
theorem finalRun_take {k n : Nat} (h : k ≤ n) (s : State) : (finalRun k s).2 = (finalRun n s).2.take k := by
  obtain ⟨j, rfl⟩ := Nat.exists_eq_add_of_le h
  rw [finalRun_add, List.take_left' (finalRun_length k s)]

@[simp] theorem finalRun_mode (n : Nat) (s : State) : (finalRun n s).1.mode = s.mode := by simp [finalRun]

/-- FINAL at the head of a sequence: the rest starts where its runs end, and its digest comes first (R96). -/
theorem execAll_final_cons {s t : State} (h : s.mode ≠ .idle) (n : BitVec 16) {is : List Instr} {ws : List RspWord}
    (hrest : execAll is (finalRun n.toNat s).1 = .next (t, ws)) :
    execAll (.final n :: is) s = .next (t, Spec.okWords s.mode (finalRun n.toNat s).2 ++ ws) := by
  obtain ⟨hstate, hout⟩ := finalBody_eq_finalRun n s
  obtain ⟨⟨hmode, -⟩, -⟩ := finalBody_frame n s
  rw [← hstate] at hrest
  rw [execAll_cons_respond (exec_final h n) hrest, hmode, hout]

/-- The ENCB commands FINAL stands for end where it ends, with the whitening outputs before the digest (R96). -/
theorem execAll_finalCommands {s : State} (h : s.mode ≠ .idle) (n : Nat) :
    execAll (Spec.finalCommands n) s =
      .next ((finalRun n s).1,
        ((encbRun Spec.whitenSeq s).2 ++ (finalRun n s).2).map (Spec.dataWord s.mode true)) := by
  have hcommands : Spec.finalCommands n = (Spec.whitenSeq ++ List.replicate n 0).map .encb := by
    rw [Spec.finalCommands, List.map_append, List.map_replicate]
  rw [hcommands, execAll_encbs _ h, encbRun_append, finalRun]

/-- What a FINAL in a session answers: its digest, and the state where its runs end (R95, R96). -/
theorem exec_final_finalRun {s : State} (h : s.mode ≠ .idle) (n : BitVec 16) :
    ∃ t, exec (.final n) s = .next t ∧ ({ t with rsp := [] } : State) = (finalRun n.toNat s).1 ∧
      Spec.outputBytes t.rsp = (finalRun n.toNat s).2 := by
  obtain ⟨hstate, hout⟩ := finalBody_eq_finalRun n s
  refine ⟨_, exec_final h n, hstate, ?_⟩
  rw [respond_rsp, responseWords_ok, outputBytes_okWords, hout]

/-- FINAL leaves the state of its ENCB commands, and delivers what they put out after the whitening pass (R96). -/
theorem final_eq_encbs {s : State} (h : s.mode ≠ .idle) (n : BitVec 16) :
    ∃ t words, exec (.final n) s = .next t ∧
      execAll (Spec.finalCommands n.toNat) s = .next ({ t with rsp := [] }, words) ∧
      Spec.outputBytes t.rsp = (words.drop 256).map rspDataField := by
  obtain ⟨t, hexec, hstate, hout⟩ := exec_final_finalRun h n
  refine ⟨t, _, hexec, hstate ▸ execAll_finalCommands h n.toNat, ?_⟩
  have hwhiten : (encbRun Spec.whitenSeq s).2.length = 256 := by
    rw [encbRun_length, whitenSeq_eq_downFrom, downFrom_length]
  rw [hout, ← List.map_drop, List.drop_left' hwhiten]
  simp [Function.comp_def]

/-- The response of a longer FINAL begins with the bytes of a shorter one (R96). -/
theorem final_take {s : State} (h : s.mode ≠ .idle) {k n : BitVec 16} (hle : k.toNat ≤ n.toNat) :
    ∃ t u, exec (.final k) s = .next t ∧ exec (.final n) s = .next u ∧
      Spec.outputBytes t.rsp = (Spec.outputBytes u.rsp).take k.toNat := by
  obtain ⟨t, hexec, -, hout⟩ := exec_final_finalRun h k
  obtain ⟨u, hexec', -, hout'⟩ := exec_final_finalRun h n
  exact ⟨t, u, hexec, hexec', by rw [hout, hout', finalRun_take hle]⟩

/-- ENCB 0 after FINAL continues the squeeze (R96). -/
theorem final_then_zeros {s : State} (h : s.mode ≠ .idle) {n m : BitVec 16} (hlt : n.toNat + m.toNat < 65536) :
    ∃ t u words words', execAll (.final n :: List.replicate m.toNat (.encb 0)) s = .next (t, words) ∧
      execAll [.final (n + m)] s = .next (u, words') ∧ t = u ∧ Spec.outputBytes words = Spec.outputBytes words' := by
  have hzeros := execAll_encbs (List.replicate m.toNat 0) (s := (finalRun n.toNat s).1) (by rwa [finalRun_mode])
  rw [List.map_replicate] at hzeros
  have hlen : (n + m).toNat = n.toNat + m.toNat := BitVec.toNat_add_of_lt hlt
  refine ⟨_, _, _, _, execAll_final_cons h n hzeros, execAll_final_cons h (n + m) (execAll_nil _), ?_, ?_⟩
  · rw [hlen, finalRun_add]
  · rw [hlen, finalRun_add, outputBytes_append, outputBytes_okWords, outputBytes_dataWord, List.append_nil,
      outputBytes_okWords]

/-- A second FINAL runs the whitening pass again (R96). -/
theorem final_then_final {s : State} (h : s.mode ≠ .idle) (n m : BitVec 16) :
    ∃ t words words', execAll [.final n, .final m] s = .next (t, words) ∧
      execAll (Spec.finalCommands n.toNat ++ Spec.finalCommands m.toNat) s = .next (t, words') := by
  have hsession : (finalRun n.toNat s).1.mode ≠ .idle := by rwa [finalRun_mode]
  exact ⟨_, _, _, execAll_final_cons h n (execAll_final_cons hsession m (execAll_nil _)),
    execAll_append (execAll_finalCommands h _) (execAll_finalCommands hsession _)⟩

/-- Settles O21: FINAL ends where its ENCB commands end, and its bytes are those of the zeros among them. -/
theorem finalIsAnEncbSequence : Obligations.FinalIsAnEncbSequence := fun _ h =>
  ⟨final_eq_encbs h, fun _ _ => final_take h, fun _ _ => final_then_zeros h, final_then_final h⟩

end Sys2Proof.Machine
end

section
/-! PROOFS. SCRUB and STAT: the reset state from every state, and the report of MODE that changes nothing else (44_system R100,
R102). -/

namespace Sys2Proof.Machine

/-! ## SCRUB -/

/-- SCRUB zeroes and answers without output, in every MODE (R100). -/
theorem exec_scrub (s : State) : exec .scrub s = .next (respond [] (zeroise s)) := rfl

/-- Zeroing reaches the reset state in all but the response and the host's side of the ports (R28, R100, R122). -/
theorem zeroise_eq_reset (s : State) :
    zeroise s = { State.reset with rsp := s.rsp, offered := s.offered, inReset := s.inReset, host := s.host } := rfl

/-- A command that ends after zeroing leaves the architectural state of reset (R28, R100). -/
theorem sameArch_respond_zeroise (out : List Byte) (s : State) : SameArch (respond out (zeroise s)) State.reset :=
  ⟨rfl, rfl, rfl, rfl, rfl, rfl, rfl, rfl⟩

/-- Settles O22: zeroing gives the reset state whatever stood before, and the end of the command answers for the new MODE. -/
theorem scrubLeavesTheResetState : Obligations.ScrubLeavesTheResetState := by
  refine ⟨rfl, fun s => ⟨_, exec_scrub s, sameArch_respond_zeroise [] s, fun k => ⟨?_, ?_⟩, ?_⟩⟩
  · rw [respond_pv, zeroise_pv]
    exact Memory.read_zeros k
  · rw [respond_keybuf, zeroise_keybuf]
    exact Memory.read_zeros k
  · rw [respond_nil_eq, zeroise_mode, zeroise_eq_reset]
    rfl

/-! ## STAT -/

/-- STAT is the end of a command and nothing else, in every MODE (R102). -/
theorem exec_stat (s : State) : exec .stat s = .next (respond [] s) := rfl

/-- Settles O23: the end of a command without output on the state STAT met. -/
theorem statReportsModeOnly : Obligations.StatReportsModeOnly :=
  ⟨rfl, fun s => by rw [exec_stat, respond_nil_eq]⟩

end Sys2Proof.Machine
end

section
/-! PROOFS. The errors: their causes word by word, what an error leaves alone, and the two kinds of session, which ENCB, DECB
and FINAL do not tell apart (60_exceptions R105 to R111). -/

namespace Sys2Proof.Machine

/-! ## Reading ERR, MODE and DATA of a response word -/

/-- Above LAST and DV a response word holds ERR and MODE (R52). -/
theorem extractLsb'_responseWord (e : ErrCode) (m : Mode) (last : Bool) (out : Option Byte) (start len : Nat) :
    (responseWord e m last out).extractLsb' (start + 1 + 1 + 8) len = (e.code ++ m.code).extractLsb' start len := by
  have hlast : (e.code ++ m.code ++ BitVec.ofBool last).extractLsb' (start + 1) len =
      (e.code ++ m.code).extractLsb' start len := BitVec.extractLsb'_append_eq_of_le (Nat.le_add_left 1 start)
  have hdv (dv : BitVec 1) : (e.code ++ m.code ++ BitVec.ofBool last ++ dv).extractLsb' (start + 1 + 1) len =
      (e.code ++ m.code).extractLsb' start len :=
    (BitVec.extractLsb'_append_eq_of_le (Nat.le_add_left 1 (start + 1))).trans hlast
  cases out <;> exact (BitVec.extractLsb'_append_eq_of_le (Nat.le_add_left 8 _)).trans (hdv _)

/-- ERR reads back (R52). -/
@[simp] theorem rspErr_responseWord (e : ErrCode) (m : Mode) (last : Bool) (out : Option Byte) :
    rspErr (responseWord e m last out) = e.code :=
  (extractLsb'_responseWord e m last out 2 4).trans BitVec.extractLsb'_append_eq_left

/-- MODE reads back (R52). -/
@[simp] theorem rspMode_responseWord (e : ErrCode) (m : Mode) (last : Bool) (out : Option Byte) :
    rspMode (responseWord e m last out) = m.code :=
  (extractLsb'_responseWord e m last out 0 2).trans BitVec.extractLsb'_append_eq_right

/-- DATA reads back the output byte, or 0 without one (R52). -/
@[simp] theorem rspDataField_responseWord (e : ErrCode) (m : Mode) (last : Bool) (out : Option Byte) :
    rspDataField (responseWord e m last out) = out.getD 0 := by
  cases out <;> exact BitVec.extractLsb'_append_eq_right

/-- Every word of a response without error has ERR = 0 (R53). -/
theorem rspErr_of_mem_respond {out : List Byte} {s : State} {w : RspWord} (hw : w ∈ (respond out s).rsp) :
    rspErr w = 0 := by
  have data (bs : List Byte) : ∀ w ∈ dataWords s.mode bs, rspErr w = 0 := by
    fun_induction dataWords s.mode bs with
    | case1 => exact fun w hw => absurd hw List.not_mem_nil
    | case2 b => exact List.forall_mem_singleton.mpr (rspErr_responseWord ..)
    | case3 b b' bs ih => exact List.forall_mem_cons.mpr ⟨rspErr_responseWord .., ih⟩
  cases out with
  | nil => exact List.mem_singleton.mp hw ▸ rspErr_responseWord ..
  | cons b bs => exact data (b :: bs) w hw

/-! ## The causes of the errors (R111) -/

/-- An error answers one word with its code (R110). -/
theorem raise_rsp_eq_singleton (e : ErrCode) (s : State) : (raise e s).rsp = [responseWord e s.mode true none] := rfl

/-- Every word of an error's response has the code in ERR (R110). -/
theorem rspErr_of_mem_raise {e : ErrCode} {s : State} {w : RspWord} (hw : w ∈ (raise e s).rsp) : rspErr w = e.code := by
  rw [raise_rsp_eq_singleton, List.mem_singleton] at hw
  rw [hw, rspErr_responseWord]

/-- A command answers at least one word, and every word has the code of `Spec.errorOf` in ERR (R111). -/
theorem exec_answers_errorOf (i : Instr) (s : State) :
    ∃ t, exec i s = .next t ∧ t.rsp ≠ [] ∧ ∀ w ∈ t.rsp, rspErr w = (Spec.errorOf i s.mode).code := by
  cases exec_ends i s with
  | error herr hout hexec => exact ⟨_, hexec, responseWords_ne_nil _ _ [], fun _ => rspErr_of_mem_raise⟩
  | ok herr out t hout hexec =>
    rw [herr]
    exact ⟨_, hexec, responseWords_ne_nil .ok t.mode out, fun _ => rspErr_of_mem_respond⟩

/-- A legal word runs its command (R50). -/
theorem execWord_of_decode_ok {w : CmdWord} {i : Instr} (h : decode w = .ok i) (s : State) : execWord w s = exec i s := by
  simp only [execWord, h]

/-- Settles O26: the decoder decides IllegalCommand on the word alone, and a legal word answers as its command ends. -/
theorem errorsHaveExactlyTheirCauses : Obligations.ErrorsHaveExactlyTheirCauses := by
  refine ⟨fun s => ⟨?_, fun hidle => ⟨?_, ?_⟩⟩, fun w s => ?_⟩
  · exact execWord_of_illegal ((decode_error_iff_illegal _).mp ⟨.keyTooLong, rfl⟩) s
  · rw [execWord_of_decode_ok (i := .initk 0) rfl, exec_initk_zero, hidle]
  · rw [← hidle]
    exact execWord_of_illegal ((decode_error_iff_illegal _).mp ⟨.reservedBits, rfl⟩) s
  · cases hw : decode w with
    | ok i => exact execWord_of_decode_ok hw s ▸ exec_answers_errorOf i s
    | error e =>
      exact ⟨_, execWord_of_decode_error hw s, responseWords_ne_nil _ _ [], fun _ => rspErr_of_mem_raise⟩

/-! ## What an error leaves alone (R110) -/

/-- An error changes the response and the transients and nothing else (R110 (a), (c)). -/
theorem raise_frame (e : ErrCode) (s : State) :
    raise e s = { s with transients := .zero, rsp := (raise e s).rsp } := rfl

/-- An error's response is one word: its code, the unchanged MODE, LAST = 1, DV = 0 and DATA = 0. -/
theorem raise_answers (e : ErrCode) (s : State) :
    ∃ w, (raise e s).rsp = [w] ∧ rspErr w = e.code ∧ rspMode w = s.mode.code ∧ rspLast w = true ∧ rspDv w = false ∧
      rspDataField w = 0 :=
  ⟨_, raise_rsp_eq_singleton e s, rspErr_responseWord .., rspMode_responseWord .., rspLast_responseWord ..,
    rspDv_responseWord .., rspDataField_responseWord ..⟩

/-- When the word of an error is taken and `rst` is low, the engine is ready. -/
theorem cmdReady_after_raise (e : ErrCode) {s : State} (hreset : s.inReset = false) :
    ∃ u, hostAct .takeRsp (raise e s) = .next u ∧ cmdReady u = true := by
  refine ⟨_, rfl, ?_⟩
  simp only [cmdReady, raise_rsp_eq_singleton, raise_inReset, hreset]
  rfl

/-- A command that answers a word with a nonzero ERR raised an error, and did nothing else. -/
theorem exec_raises_of_rspErr_ne_zero {i : Instr} {s t : State} {w : RspWord} (hexec : exec i s = .next t)
    (hw : w ∈ t.rsp) (herr : rspErr w ≠ 0) : ∃ e, t = raise e s := by
  cases exec_ends i s with
  | error _ _ hraise => exact ⟨_, Host.Outcome.next.inj (hexec.symm.trans hraise)⟩
  | ok _ out u _ hrespond =>
    cases hexec.symm.trans hrespond
    exact absurd (rspErr_of_mem_respond hw) herr

/-- Settles O27: a nonzero ERR, and an illegal word, both come from `raise` on the state the command met. -/
theorem errorsChangeNothing : Obligations.ErrorsChangeNothing := by
  refine ⟨fun i s t hexec ⟨w, hw, herr⟩ => ?_, fun w s t e hdecode hexec => ?_⟩
  · obtain ⟨e, rfl⟩ := exec_raises_of_rspErr_ne_zero hexec hw herr
    obtain ⟨x, hx, -, hfields⟩ := raise_answers e s
    exact ⟨raise_frame e s, ⟨x, hx, hfields⟩, cmdReady_after_raise e⟩
  · cases hexec.symm.trans (execWord_of_decode_error hdecode s)
    exact ⟨raise_frame _ s, raise_answers _ s, cmdReady_after_raise _⟩

/-! ## KEYED and DIGEST (R109) -/

/-- A command of the session family keeps MODE where its work does. -/
theorem inSession_mode {s : State} {work : State → State} (h : (work s).mode = s.mode) :
    (inSession s work).mode = s.mode := by
  obtain ⟨-, hraise⟩ | ⟨-, hrun⟩ := inSession_cases s work
  · rw [hraise, raise_mode]
  · rw [hrun, h]

/-- All that a command can do to MODE: keep it, leave the session (SCRUB), or enter one (INITK, INITD). -/
theorem exec_mode_cases {i : Instr} {s t : State} (hexec : exec i s = .next t) :
    t.mode = s.mode ∨ i = .scrub ∧ t.mode = .idle ∨ i.mnemonic = .initk ∧ t.mode = .keyed ∨
      i.mnemonic = .initd ∧ t.mode = .digest := by
  cases i with
  | ldk idx byte => cases hexec; exact .inl rfl
  | initk len =>
    cases initk_ends len s with
    | error _ _ hraise => cases hexec.symm.trans hraise; exact .inl rfl
    | ok herr _ _ _ _ =>
      have hlong : ¬ 256 < len.toNat := fun h => by simp [Spec.errorOf, h] at herr
      have hzero : len ≠ 0 := fun h => by simp [Spec.errorOf, h] at herr
      cases hexec.symm.trans ((if_neg hlong).trans (if_neg hzero))
      exact .inr (.inr (.inl ⟨rfl, rfl⟩))
  | initd => cases hexec; exact .inr (.inr (.inr ⟨rfl, rfl⟩))
  | encb byte => cases hexec; exact .inl (inSession_mode rfl)
  | decb byte => cases hexec; exact .inl (inSession_mode rfl)
  | final len =>
    obtain ⟨⟨hmode, -⟩, -⟩ := finalBody_frame len s
    cases hexec
    exact .inl (inSession_mode hmode)
  | scrub => cases hexec; exact .inr (.inl ⟨rfl, rfl⟩)
  | stat => cases hexec; exact .inl rfl

/-- S3 to S7 do not read MODE (R82). -/
theorem fourMoves_of_mode (m : Mode) (s : State) : fourMoves { s with mode := m } = { fourMoves s with mode := m } := rfl

/-- S8 to S11 do not read MODE (R82). -/
theorem formMix_of_mode (m : Mode) (s : State) : formMix { s with mode := m } = { formMix s with mode := m } := rfl

/-- The step does not read MODE (R82). -/
theorem transform_of_mode (m : Mode) (s : State) : transform { s with mode := m } = { transform s with mode := m } := by
  have hindex : indexUpdate { s with mode := m } = { indexUpdate s with mode := m } := rfl
  rw [transform, hindex, fourMoves_of_mode, formMix_of_mode, transform]

/-- ENCB's work does not read MODE (R80). -/
theorem encbBody_of_mode (byte : Byte) (m : Mode) (s : State) :
    encbBody byte { s with mode := m } = { encbBody byte s with mode := m } := by
  simp only [encbBody, transform_of_mode]

/-- DECB's work does not read MODE (R81). -/
theorem decbBody_of_mode (byte : Byte) (m : Mode) (s : State) :
    decbBody byte { s with mode := m } = { decbBody byte s with mode := m } := by
  simp only [decbBody, transform_of_mode]

/-- The whitening pass does not read MODE (R95). -/
theorem whiten_of_mode (k : Nat) (m : Mode) (s : State) :
    whiten k { s with mode := m } = { whiten k s with mode := m } := by
  induction k generalizing s with
  | zero => rfl
  | succ k ih =>
    rw [whiten_succ, whiten_succ, ← ih, ← encbBody_of_mode]

/-- The squeeze does not read MODE (R95). -/
theorem squeeze_of_mode (k : Nat) (m : Mode) (s : State) :
    squeeze k { s with mode := m } = ({ (squeeze k s).1 with mode := m }, (squeeze k s).2) := by
  induction k generalizing s with
  | zero => rfl
  | succ k ih =>
    have hbody := encbBody_of_mode 0 m { s with transients.n := s.transients.n + 1 }
    simp only [squeeze_succ, hbody, ih]

/-- FINAL's work does not read MODE (R95). -/
theorem finalBody_of_mode (len : BitVec 16) (m : Mode) (s : State) :
    finalBody len { s with mode := m } = ({ (finalBody len s).1 with mode := m }, (finalBody len s).2) := by
  rw [finalBody, whiten_of_mode]
  exact squeeze_of_mode len.toNat m { whiten Config.whitenSteps s with transients.n := 0 }

/-- ENCB, DECB and FINAL do the same work and put out the same bytes in every session, whatever its MODE (R109). -/
theorem exec_in_every_session {i : Instr} (h : i.mnemonic ∈ [Mnemonic.encb, .decb, .final]) (s : State) :
    ∃ (out : List Byte) (t : State), ∀ m ≠ Mode.idle,
      exec i { s with mode := m } = .next (respond out { t with mode := m }) := by
  cases i with
  | encb byte =>
    refine ⟨[(encbBody byte s).right], encbBody byte s, fun m hm => ?_⟩
    rw [exec_encb (s := { s with mode := m }) hm, encbBody_of_mode]
  | decb byte =>
    refine ⟨[(decbBody byte s).left], decbBody byte s, fun m hm => ?_⟩
    rw [exec_decb (s := { s with mode := m }) hm, decbBody_of_mode]
  | final len =>
    refine ⟨(finalBody len s).2, (finalBody len s).1, fun m hm => ?_⟩
    rw [exec_final (s := { s with mode := m }) hm, finalBody_of_mode]
  | ldk | initk | initd | scrub | stat => simp [Instr.mnemonic] at h

/-- Settles O28: a change of MODE out of IDLE is one of two writes, and the work of the session family does not read MODE. -/
theorem keyedAndDigestRunAlike : Obligations.KeyedAndDigestRunAlike := by
  refine ⟨fun i s t hexec hsession hchange => ?_, fun i s hi => ?_⟩
  · obtain hkept | ⟨-, hidle⟩ | hentered := exec_mode_cases hexec
    · exact absurd hkept hchange
    · exact absurd hidle hsession
    · exact hentered
  · obtain ⟨out, t, hrun⟩ := exec_in_every_session hi s
    refine ⟨_, _, hrun .keyed (by decide), hrun .digest (by decide), rfl, rfl, ?_, fun _ => rspErr_of_mem_respond,
      fun _ => rspErr_of_mem_respond⟩
    rw [respond_rsp, respond_rsp, responseWords_ok, responseWords_ok, outputBytes_okWords, outputBytes_okWords]

end Sys2Proof.Machine
end

section
/-! PROOFS. Decoder and encoder: the decoder reads a command exactly from the words whose fields hold it, so that the two are
inverse to each other; and the rows of the opcode map are disjoint ranges of words (30_encoding R46 to R50). -/

namespace Sys2Proof.Machine

open Laws.OpcodeField (opcodeOf)

/-! ## The words of a command by number (R46) -/

/-- Two pieces joined, by number. -/
theorem toNat_append_eq_add {n m : Nat} (hi : BitVec n) (lo : BitVec m) :
    (hi ++ lo).toNat = hi.toNat * 2 ^ m + lo.toNat := by
  rw [BitVec.toNat_append, ← Nat.shiftLeft_add_eq_or_of_lt lo.isLt, Nat.shiftLeft_eq]

/-- A word of format K by number. -/
theorem formatK_toNat (op idx byte : Byte) :
    (formatK op idx byte).toNat = op.toNat * 0x1000000 + idx.toNat * 256 + byte.toNat := by
  simp only [formatK, toNat_append_eq_add, BitVec.ofNat_eq_ofNat, BitVec.toNat_ofNat]
  omega

/-- In a word of format K the index reads back. -/
theorem idxField_formatK (op idx byte : Byte) : idxField (formatK op idx byte) = idx := by
  apply BitVec.eq_of_toNat_eq
  rw [idxField_toNat, formatK_toNat]
  omega

/-- In a word of format B the bits of the index are 0. -/
theorem idxField_formatB (op byte : Byte) : idxField (formatB op byte) = 0 := by
  apply BitVec.eq_of_toNat_eq
  rw [idxField_toNat, formatB_toNat, BitVec.ofNat_eq_ofNat, BitVec.toNat_ofNat, Nat.zero_mod]
  omega

/-! ## What the decoder reads (R50) -/

/-- The operand fields of a word hold the operands of a command, within the bound of R48, and 0 where its format has no
operand. -/
def operandsFit (w : CmdWord) : Instr → Prop
  | .ldk idx byte => idxField w = idx ∧ byteField w = byte
  | .initk len => lenField w = len ∧ len.toNat ≤ Config.keyMax
  | .initd => lenField w = 0
  | .encb byte => idxField w = 0 ∧ byteField w = byte
  | .decb byte => idxField w = 0 ∧ byteField w = byte
  | .final len => lenField w = len
  | .scrub => lenField w = 0
  | .stat => lenField w = 0

/-- A row's operand test passes exactly the words that do not fail it, and one command is read from them. -/
theorem ite_error_eq_ok_iff {c : Prop} [Decidable c] (e : DecodeError) (i j : Instr) :
    (if c then Except.error e else Except.ok i : Except DecodeError Instr) = .ok j ↔ ¬ c ∧ i = j := by
  split <;> simp [*]

/-- All that a decoded word holds: the opcode of its command, its operands, and 0 in every other bit. -/
theorem fields_of_decode {w : CmdWord} {i : Instr} (h : decode w = .ok i) :
    zeroField w = 0 ∧ opField w = opcodeOf i.mnemonic ∧ operandsFit w i := by
  have hop {op : Byte} (h : (opField w).toNat = op.toNat) : opField w = op := BitVec.eq_of_toNat_eq h
  unfold decode at h
  split at h
  case isTrue => cases h
  rename_i hzero
  refine ⟨not_not.mp hzero, ?_⟩
  split at h
  case h_1 hrow => cases h; exact ⟨hop hrow, rfl, rfl⟩
  case h_2 hrow =>
    obtain ⟨hlen, rfl⟩ := (ite_error_eq_ok_iff ..).mp h
    exact ⟨hop hrow, rfl, not_lt.mp hlen⟩
  case h_4 hrow | h_5 hrow =>
    obtain ⟨hidx, rfl⟩ := (ite_error_eq_ok_iff ..).mp h
    exact ⟨hop hrow, not_not.mp hidx, rfl⟩
  case h_6 hrow => cases h; exact ⟨hop hrow, rfl⟩
  case h_3 hrow | h_7 hrow | h_8 hrow =>
    obtain ⟨hlen, rfl⟩ := (ite_error_eq_ok_iff ..).mp h
    exact ⟨hop hrow, not_not.mp hlen⟩
  case h_9 => cases h

/-- A word that holds a command's opcode and operands, and 0 in every other bit, decodes to it. -/
theorem decode_of_fields {w : CmdWord} {i : Instr} (hzero : zeroField w = 0) (hop : opField w = opcodeOf i.mnemonic)
    (hfit : operandsFit w i) : decode w = .ok i := by
  unfold decode
  rw [if_neg (not_not.mpr hzero), hop]
  cases i with
  | ldk idx byte =>
    obtain ⟨rfl, rfl⟩ := hfit
    rfl
  | initk len =>
    obtain ⟨rfl, hlen⟩ := hfit
    exact if_neg (not_lt.mpr hlen)
  | encb byte | decb byte =>
    obtain ⟨hidx, rfl⟩ := hfit
    exact if_neg (not_not.mpr hidx)
  | final len =>
    obtain rfl : lenField w = len := hfit
    rfl
  | initd | scrub | stat => exact if_neg (not_not.mpr hfit)

/-! ## Encoding and decoding again -/

/-- The word of a command carries its opcode in bits 31:24 and 0 in the reserved bits 23:16 (R46, R47). -/
theorem opField_encode (i : Instr) : opField (encode i) = opcodeOf i.mnemonic ∧ zeroField (encode i) = 0 := by
  cases i with
  | ldk idx byte => exact Laws.OpcodeField.ldk idx byte
  | initk len => exact Laws.OpcodeField.initk len
  | initd => exact Laws.OpcodeField.initd
  | encb byte => exact Laws.OpcodeField.encb byte
  | decb byte => exact Laws.OpcodeField.decb byte
  | final len => exact Laws.OpcodeField.final len
  | scrub => exact Laws.OpcodeField.scrub
  | stat => exact Laws.OpcodeField.stat

/-- The word of a well-formed command carries its operands (R46 to R49). -/
theorem operandsFit_encode {i : Instr} (h : i.wellFormed = true) : operandsFit (encode i) i := by
  cases i with
  | ldk idx byte => exact ⟨idxField_formatK 0x01 idx byte, BitVec.extractLsb'_append_eq_right⟩
  | initk len => exact ⟨BitVec.extractLsb'_append_eq_right, of_decide_eq_true h⟩
  | encb byte => exact ⟨idxField_formatB 0x04 byte, BitVec.extractLsb'_append_eq_right⟩
  | decb byte => exact ⟨idxField_formatB 0x05 byte, BitVec.extractLsb'_append_eq_right⟩
  | final len => exact BitVec.extractLsb'_append_eq_right
  | initd | scrub | stat => rfl

/-- Settles O1: the word of a command holds its opcode and operands, and from such a word the decoder reads the command. -/
theorem decodeInvertsEncode : Obligations.DecodeInvertsEncode := fun i h =>
  have ⟨hop, hzero⟩ := opField_encode i
  decode_of_fields hzero hop (operandsFit_encode h)

/-- The length stands where index and byte stand (R47). -/
theorem lenField_eq_of_bytes {w v : CmdWord} (hidx : idxField w = idxField v) (hbyte : byteField w = byteField v) :
    lenField w = lenField v := by
  have hsplit (u : CmdWord) : lenField u = idxField u ++ byteField u := by
    rw [lenField, idxField, byteField, BitVec.extractLsb'_append_extractLsb'_eq_extractLsb' (show 8 = 0 + 8 from rfl)]
  rw [hsplit, hsplit, hidx, hbyte]

/-- The fields of a word leave no bit out (R47). -/
theorem eq_of_fields {w v : CmdWord} (hop : opField w = opField v) (hzero : zeroField w = zeroField v)
    (hlen : lenField w = lenField v) : w = v := by
  rw [← BitVec.toNat_inj] at *
  rw [opField_toNat, opField_toNat] at hop
  rw [zeroField_toNat, zeroField_toNat] at hzero
  rw [lenField_toNat, lenField_toNat] at hlen
  omega

/-- A command's operands fix the lower half of its word. -/
theorem lenField_eq_of_operandsFit {w v : CmdWord} {i : Instr} (hw : operandsFit w i) (hv : operandsFit v i) :
    lenField w = lenField v := by
  cases i with
  | ldk | encb | decb => exact lenField_eq_of_bytes (hw.1.trans hv.1.symm) (hw.2.trans hv.2.symm)
  | initk => exact hw.1.trans hv.1.symm
  | initd | final | scrub | stat => exact hw.trans hv.symm

/-- Only a well-formed command can be read from a word. -/
theorem wellFormed_of_operandsFit {w : CmdWord} {i : Instr} (h : operandsFit w i) : i.wellFormed = true := by
  cases i with
  | initk len => exact decide_eq_true h.2
  | ldk | initd | encb | decb | final | scrub | stat => rfl

/-- Settles O2: a word and the word of the command it decodes to have the same fields. -/
theorem encodeInvertsDecode : Obligations.EncodeInvertsDecode := by
  intro w i h
  obtain ⟨hzero, hop, hfit⟩ := fields_of_decode h
  obtain ⟨hop', hzero'⟩ := opField_encode i
  have hwf := wellFormed_of_operandsFit hfit
  exact ⟨eq_of_fields (hop'.trans hop.symm) (hzero'.trans hzero.symm)
    (lenField_eq_of_operandsFit (operandsFit_encode hwf) hfit), hwf⟩

/-- Settles O5: the decoder, evaluated on the eight words. -/
theorem writtenWordsDecode : Obligations.WrittenWordsDecode := ⟨rfl, rfl, rfl, rfl, rfl, rfl, rfl, rfl⟩

/-! ## The rows of the opcode map (R49) -/

/-- A mask of leading ones keeps the upper bits of a word. -/
theorem and_highMask_toNat (w : CmdWord) (k : Nat) :
    (w &&& BitVec.allOnes 32 <<< k).toNat = w.toNat / 2 ^ k * 2 ^ k := by
  have hshift : w &&& BitVec.allOnes 32 <<< k = (w >>> k) <<< k := by
    apply BitVec.eq_of_getLsbD_eq
    intro i hi
    simp only [BitVec.getLsbD_and, BitVec.getLsbD_shiftLeft, BitVec.getLsbD_ushiftRight, BitVec.getLsbD_allOnes]
    by_cases hk : i < k
    · simp [hk]
    · simp [hk, hi, show k + (i - k) = i by omega, show i - k < 32 by omega]
  rw [hshift, BitVec.toNat_shiftLeft, BitVec.toNat_ushiftRight, Nat.shiftRight_eq_div_pow, Nat.shiftLeft_eq,
    Nat.mod_eq_of_lt ((Nat.div_mul_le_self _ _).trans_lt w.isLt)]

/-- How many words select a row: one for each value of the bits its mask leaves out. -/
def rowSize (r : OpcodeRow) : Nat := (~~~ r.mask).toNat + 1

/-- How many of them meet the operand constraint: all, but for INITK those with a length of at most 256. -/
def legalSize (r : OpcodeRow) : Nat := if r.mnemonic = .initk then 257 else rowSize r

theorem opcodeRows_aligned :
    ∀ r ∈ opcodeRows, ∃ k ≤ 16, r.mask = BitVec.allOnes 32 <<< k ∧ rowSize r = 2 ^ k ∧ 2 ^ k ∣ r.pattern.toNat := by
  decide

theorem opcodeRows_bounds :
    ∀ r ∈ opcodeRows, r.pattern.toNat = (opcodeOf r.mnemonic).toNat * 2 ^ 24 ∧ rowSize r ≤ 2 ^ 16 := by
  decide

theorem opcodeOf_injective_on_rows :
    ∀ r ∈ opcodeRows, ∀ r' ∈ opcodeRows, opcodeOf r.mnemonic = opcodeOf r'.mnemonic → r = r' := by
  decide

theorem legalRanges_eq_map : legalRanges = opcodeRows.map fun r => (r.pattern.toNat, legalSize r) := by
  decide

/-- The words that select a row are a range. -/
theorem selects_iff_range {r : OpcodeRow} (hr : r ∈ opcodeRows) (w : CmdWord) :
    r.selects w = true ↔ r.pattern.toNat ≤ w.toNat ∧ w.toNat < r.pattern.toNat + rowSize r := by
  obtain ⟨k, -, hmask, hsize, n, hn⟩ := opcodeRows_aligned r hr
  have hpos := Nat.two_pow_pos k
  rw [OpcodeRow.selects, beq_iff_eq, ← BitVec.toNat_inj, hmask, and_highMask_toNat, hn, hsize, Nat.mul_comm,
    Nat.mul_left_cancel_iff hpos, Nat.div_eq_iff hpos, Nat.mul_comm n]
  omega

/-- So are the words of a row that meet its operand constraint. -/
theorem selects_and_constraint_iff_range {r : OpcodeRow} (hr : r ∈ opcodeRows) (w : CmdWord) :
    (r.selects w = true ∧ (r.mnemonic = .initk → (lenField w).toNat ≤ 256)) ↔
      r.pattern.toNat ≤ w.toNat ∧ w.toNat < r.pattern.toNat + legalSize r := by
  rw [selects_iff_range hr, lenField_toNat, legalSize]
  split
  case isFalse hother => simp [hother]
  case isTrue hinitk =>
    have hinitkRow : ∀ r ∈ opcodeRows, r.mnemonic = .initk → r.pattern.toNat = 0x2000000 ∧ rowSize r = 2 ^ 16 := by decide
    obtain ⟨hpattern, hsize⟩ := hinitkRow r hr hinitk
    simp only [hinitk, forall_const]
    omega

/-- A word that selects a row has its opcode. -/
theorem opField_of_selects {r : OpcodeRow} (hr : r ∈ opcodeRows) {w : CmdWord} (h : r.selects w = true) :
    opField w = opcodeOf r.mnemonic := by
  obtain ⟨hpattern, hsize⟩ := opcodeRows_bounds r hr
  rw [selects_iff_range hr] at h
  rw [← BitVec.toNat_inj, opField_toNat]
  omega

/-- The legal words are those that select a row and meet its constraint. -/
theorem not_illegal_iff_row (w : CmdWord) :
    ¬ Spec.illegal w ↔ ∃ r ∈ opcodeRows, r.selects w = true ∧ (r.mnemonic = .initk → (lenField w).toNat ≤ 256) := by
  rw [not_illegal_iff_mem_range, legalRanges_eq_map]
  simp only [List.mem_map, exists_exists_and_eq_and]
  exact exists_congr fun r => and_congr_right fun hr => (selects_and_constraint_iff_range hr w).symm

/-- The row of a command is the one of its opcode. -/
theorem mnemonic_eq_of_opcodeOf_eq {r : OpcodeRow} (hr : r ∈ opcodeRows) {i : Instr}
    (h : opcodeOf r.mnemonic = opcodeOf i.mnemonic) : r.mnemonic = i.mnemonic := by
  obtain ⟨r', hr', hi⟩ : ∃ r' ∈ opcodeRows, r'.mnemonic = i.mnemonic := by cases i <;> simp [opcodeRows, Instr.mnemonic]
  rw [← hi] at h ⊢
  rw [opcodeOf_injective_on_rows r hr r' hr' h]

/-- Settles O3: a legal word selects a row, whose opcode it has, and no other row has that opcode; an illegal word that selects a
row fails its constraint. -/
theorem everyWordSelectsOneRowOrIsIllegal : Obligations.EveryWordSelectsOneRowOrIsIllegal := by
  intro w
  cases hw : decode w with
  | ok i =>
    obtain ⟨r, hr, hselects, hconstraint⟩ := (not_illegal_iff_row w).mp ((decode_ok_iff_not_illegal w).mp ⟨i, hw⟩)
    have hop := opField_of_selects hr hselects
    obtain ⟨-, hopcode, -⟩ := fields_of_decode hw
    refine .inl ⟨i, rfl, r, hr, mnemonic_eq_of_opcodeOf_eq hr (hop.symm.trans hopcode), hselects, hconstraint, ?_⟩
    intro r' hr' hselects'
    exact opcodeOf_injective_on_rows r' hr' r hr ((opField_of_selects hr' hselects').symm.trans hop)
  | error e =>
    refine .inr ⟨⟨e, rfl⟩, fun r hr hselects => ?_⟩
    by_contra hlegal
    have hconstraint (hinitk : r.mnemonic = .initk) : (lenField w).toNat ≤ 256 :=
      not_lt.mp fun hlong => hlegal ⟨hinitk, hlong⟩
    exact (not_illegal_iff_row w).mpr ⟨r, hr, hselects, hconstraint⟩ ((decode_error_iff_illegal w).mp ⟨e, hw⟩)

end Sys2Proof.Machine
end

section
/-! PROOFS. What a command does once its tests are passed, as one equation for all commands; and all that one step can do
(10_state section 11; 60_exceptions R108 to R111; 70_reset R121, R127). -/

namespace Sys2Proof.Machine

/-! ## The work of a command -/

/-- The work of a command that passes its tests: the state before the command ends, and its output bytes. -/
def workOf : Instr → State → State × List Byte
  | .ldk idx byte, s => ({ s with keybuf := Memory.write s.keybuf idx byte }, [])
  | .initk len, s => (keySchedule len s, [])
  | .initd, s => (digestHandle s, [])
  | .encb byte, s => (encbBody byte s, [(encbBody byte s).right])
  | .decb byte, s => (decbBody byte s, [(decbBody byte s).left])
  | .final len, s => finalBody len s
  | .scrub, s => (zeroise s, [])
  | .stat, s => (s, [])

/-- How a command ends: with its error, or with the response to its work (R110, R53). -/
def endOf (i : Instr) (s : State) : State :=
  if Spec.errorOf i s.mode = .ok then respond (workOf i s).2 (workOf i s).1 else raise (Spec.errorOf i s.mode) s

theorem endOf_of_ok {i : Instr} {s : State} (h : Spec.errorOf i s.mode = .ok) :
    endOf i s = respond (workOf i s).2 (workOf i s).1 := if_pos h

theorem endOf_of_error {i : Instr} {s : State} (h : Spec.errorOf i s.mode ≠ .ok) :
    endOf i s = raise (Spec.errorOf i s.mode) s := if_neg h

/-- INITK passes its tests with a key of 1 to 256 bytes (R65, R111). -/
theorem errorOf_initk_eq_ok_iff {len : BitVec 16} {m : Mode} :
    Spec.errorOf (.initk len) m = .ok ↔ 1 ≤ len.toNat ∧ len.toNat ≤ 256 := by
  have hzero : len = 0 ↔ len.toNat = 0 := BitVec.toNat_inj.symm
  simp only [Spec.errorOf, hzero]
  split_ifs <;> simp <;> omega

/-- The test of the session family is its only one (R108). -/
theorem errorOf_session {i : Instr} (h : i.mnemonic ∈ [Mnemonic.encb, .decb, .final]) (m : Mode) :
    Spec.errorOf i m = if m = .idle then .noSession else .ok := by
  cases i with
  | encb | decb | final => cases m <;> rfl
  | ldk | initk | initd | scrub | stat => simp [Instr.mnemonic] at h

/-- Every command completes, and this is how (R113). -/
theorem exec_eq (i : Instr) (s : State) : exec i s = .next (endOf i s) := by
  have hsession {work : State → State} (h : i.mnemonic ∈ [Mnemonic.encb, .decb, .final])
      (hwork : work s = respond (workOf i s).2 (workOf i s).1) : inSession s work = endOf i s := by
    rw [endOf, errorOf_session h, inSession, hwork]
    split <;> rfl
  cases i with
  | ldk | initd | scrub | stat => rfl
  | initk len =>
    cases initk_ends len s with
    | error herr _ hexec => rw [hexec, endOf_of_error herr]
    | ok herr =>
      obtain ⟨hpos, hlen⟩ := errorOf_initk_eq_ok_iff.mp herr
      rw [exec_initk s hpos hlen, endOf_of_ok herr]
      rfl
  | encb | decb | final => exact congrArg _ (hsession (by simp [Instr.mnemonic]) rfl)

/-! ## What no command does (R29) -/

/-- The work of a command leaves the ports alone. -/
theorem workOf_ports (i : Instr) (s : State) : SamePorts s (workOf i s).1 := by
  cases i with
  | ldk | initd | encb | decb | scrub | stat => exact ⟨rfl, rfl, rfl⟩
  | initk len =>
    obtain ⟨-, -, -, hoffered, hreset, hhost⟩ := keySchedule_frame len s
    exact ⟨hoffered.symm, hreset.symm, hhost.symm⟩
  | final len =>
    obtain ⟨⟨-, -, -, hoffered, hreset, hhost⟩, -⟩ := finalBody_frame len s
    exact ⟨hoffered.symm, hreset.symm, hhost.symm⟩

/-- A command leaves the ports alone, whether it raises an error or not. -/
theorem endOf_ports (i : Instr) (s : State) : SamePorts s (endOf i s) := by
  unfold endOf
  split
  · exact workOf_ports i s
  · exact ⟨rfl, rfl, rfl⟩

/-- Every command ends with the transients at zero (R23). -/
theorem endOf_transients (i : Instr) (s : State) : (endOf i s).transients = .zero := by
  unfold endOf
  split <;> rfl

/-! ## What one step can do -/

/-- All that a turn of the host can do, where it answers a next state (R121, R127): by the host's next action, if it has one. -/
inductive HostTurn (s t : State) : Prop where
  | pause (hhost : s.host = []) (ht : t = s)
  | offer (act : HostAct) (rest : List HostAct) (o : Option CmdWord) (hhost : s.host = act :: rest)
      (hact : act = .dropCmd ∨ ∃ w, act = .raiseCmd w) (ht : t = { s with offered := o, host := rest })
  | take (rest : List HostAct) (hhost : s.host = .takeRsp :: rest) (ht : t = { s with rsp := s.rsp.tail, host := rest })
  | assert (rest : List HostAct) (hhost : s.host = .assertRst :: rest)
      (ht : t = { s with rsp := [], inReset := true, host := rest })
  | release (rest : List HostAct) (hhost : s.host = .releaseRst :: rest) (hreset : s.inReset = true)
      (ht : t = { State.reset with offered := s.offered, host := rest })
  | stayLow (rest : List HostAct) (hhost : s.host = .releaseRst :: rest) (hreset : s.inReset = false)
      (ht : t = { s with host := rest })

theorem hostTurn_of_nil {s : State} (h : s.host = []) : hostTurn s = .next s := by
  simp only [hostTurn, h]

theorem hostTurn_of_cons {s : State} {act : HostAct} {rest : List HostAct} (h : s.host = act :: rest) :
    hostTurn s = hostAct act { s with host := rest } := by
  simp only [hostTurn, h]

/-- The release of a high `rst` leaves the reset state (R122). -/
theorem releaseReset_of_high {s : State} (h : s.inReset = true) :
    releaseReset s = { State.reset with offered := s.offered, host := s.host } := if_pos h

/-- The release of a low `rst` does nothing. -/
theorem releaseReset_of_low {s : State} (h : s.inReset = false) : releaseReset s = s := if_neg (by simp [h])

theorem hostTurn_cases {s t : State} (h : hostTurn s = .next t) : HostTurn s t := by
  cases hhost : s.host with
  | nil =>
    rw [hostTurn_of_nil hhost] at h
    cases h
    exact .pause hhost rfl
  | cons act rest =>
    rw [hostTurn_of_cons hhost] at h
    have offer {o : Option CmdWord} (hact : act = .dropCmd ∨ ∃ w, act = .raiseCmd w)
        (ht : hostAct act { s with host := rest } = .next { s with offered := o, host := rest }) : HostTurn s t :=
      .offer act rest o hhost hact (Host.Outcome.next.inj (h.symm.trans ht))
    obtain ⟨w, hact, -, hnext⟩ | ⟨w, hact, -, hnext⟩ | ⟨w, v, -, -, -, hrefused⟩ | ⟨hact, hnext⟩ | ⟨rfl, hnext⟩ |
      ⟨rfl, hnext⟩ | ⟨rfl, hnext⟩ := hostAct_cases act { s with host := rest }
    · exact offer (.inr ⟨w, hact⟩) hnext
    · exact offer (.inr ⟨w, hact⟩) hnext
    · cases h.symm.trans hrefused
    · exact offer (.inl hact) hnext
    · cases h.symm.trans hnext
      exact .take rest hhost rfl
    · cases h.symm.trans hnext
      exact .assert rest hhost rfl
    · cases h.symm.trans hnext
      obtain hreset | hreset := Bool.eq_false_or_eq_true s.inReset
      · exact .release rest hhost hreset (releaseReset_of_high (s := { s with host := rest }) hreset)
      · exact .stayLow rest hhost hreset (releaseReset_of_low (s := { s with host := rest }) hreset)

/-- All that a step can do, where it answers a next state: run the accepted command, refuse the accepted word, or give the
host a turn. -/
inductive StepTo (s t : State) : Prop where
  | command (w : CmdWord) (i : Instr) (hfetch : fetch s = some w) (ht : t = endOf i (consume s))
  | illegal (w : CmdWord) (hfetch : fetch s = some w) (ht : t = raise .illegalCommand (consume s))
  | host (hfetch : fetch s = none) (hturn : HostTurn s t)

theorem step_next_cases {s t : State} (h : step s = .next t) : StepTo s t := by
  obtain ⟨w, hfetch, hstep⟩ | ⟨hfetch, hstep⟩ := step_cases s
  · cases hdecode : decode w with
    | ok i =>
      rw [hstep, execWord_of_decode_ok hdecode, exec_eq] at h
      cases h
      exact .command w i hfetch rfl
    | error e =>
      rw [hstep, execWord_of_decode_error hdecode] at h
      cases h
      exact .illegal w hfetch rfl
  · exact .host hfetch (hostTurn_cases (hstep ▸ h))

end Sys2Proof.Machine
end

section
/-! PROOFS. The invariants of every step: each holds after the work of a command, after an error, and after an action of the
host (10_state R14, R23, R28; 20_memory section 1; 30_encoding R53; 70_reset R121). -/

namespace Sys2Proof.Machine

/-! ## One induction step for all invariants -/

/-- What a property of states needs so that every step keeps it: that of a command, run where `rst` is low, by its work or by
its error, and the five things an action of the host can do. -/
structure KeptByStep (P : State → Prop) : Prop where
  work : ∀ {i : Instr} {s : State}, P s → s.inReset = false → Spec.errorOf i s.mode = .ok →
    P (respond (workOf i s).2 (workOf i s).1)
  error : ∀ {e : ErrCode} {s : State}, P s → s.inReset = false → P (raise e s)
  ports : ∀ {s : State} {o : Option CmdWord} {host : List HostAct}, P s → P { s with offered := o, host := host }
  take : ∀ {s : State}, P s → P { s with rsp := s.rsp.tail }
  assert : ∀ {s : State}, P s → P { s with rsp := [], inReset := true }
  release : P State.reset

/-- An action of the host keeps it. -/
theorem KeptByStep.hostTurn {P : State → Prop} (h : KeptByStep P) {s t : State} (hs : P s) (hturn : HostTurn s t) : P t := by
  cases hturn with
  | pause _ ht => exact ht ▸ hs
  | offer _ _ _ _ _ ht => exact ht ▸ h.ports hs
  | take _ _ ht => exact ht ▸ h.ports (o := s.offered) (h.take hs)
  | assert _ _ ht => exact ht ▸ h.ports (o := s.offered) (h.assert hs)
  | release _ _ _ ht => exact ht ▸ h.ports h.release
  | stayLow _ _ _ ht => exact ht ▸ h.ports (o := s.offered) hs

/-- Every step keeps it. -/
theorem KeptByStep.step {P : State → Prop} (h : KeptByStep P) (s t : State) (hs : P s) (hstep : step s = .next t) : P t := by
  have consumed {w : CmdWord} (hfetch : fetch s = some w) : P (consume s) ∧ (consume s).inReset = false := by
    obtain ⟨-, hreset, -⟩ := fetch_eq_some.mp hfetch
    exact ⟨h.ports (host := s.host) hs, hreset⟩
  cases step_next_cases hstep with
  | command w i hfetch ht =>
    obtain ⟨hkept, hreset⟩ := consumed hfetch
    by_cases herr : Spec.errorOf i (consume s).mode = .ok
    · exact ht ▸ endOf_of_ok herr ▸ h.work hkept hreset herr
    · exact ht ▸ endOf_of_error herr ▸ h.error hkept hreset
  | illegal w hfetch ht =>
    obtain ⟨hkept, hreset⟩ := consumed hfetch
    exact ht ▸ h.error hkept hreset
  | host hfetch hturn => exact h.hostTurn hs hturn

/-! ## PV through the transform -/

/-- What the moves keep of PV, FINAL keeps: outside them it does not write PV (R82, R95). -/
theorem finalBody_keeps_pv {P : Memory → Prop} (hmoves : ∀ s : State, P s.pv → P (fourMoves s).pv) (len : BitVec 16)
    {s : State} (h : P s.pv) : P (finalBody len s).1.pv := by
  have body (byte : Byte) {s : State} (h : P s.pv) : P (encbBody byte s).pv := hmoves (indexUpdate s) h
  have whitened (k : Nat) {s : State} (h : P s.pv) : P (whiten k s).pv := by
    induction k generalizing s with
    | zero => exact h
    | succ k ih => exact ih (body _ h)
  have squeezed (k : Nat) {s : State} (h : P s.pv) : P (squeeze k s).1.pv := by
    induction k generalizing s with
    | zero => exact h
    | succ k ih => exact ih (body _ h)
  have hwhitened : ∀ k, P { whiten k s with transients.n := 0 }.pv := fun k => whitened k h
  exact squeezed _ (hwhitened Config.whitenSteps)

/-! ## The permutation (R14, R28) -/

/-- In a session the handle's invariant is that PV is a bijection. -/
theorem handleInv_iff_of_session {s : State} (h : s.mode ≠ .idle) : HandleInv s ↔ isPermutation s.pv := by
  unfold HandleInv
  cases hmode : s.mode with
  | idle => exact absurd hmode h
  | keyed | digest => exact Iff.rfl

/-- A command of the session family that passes its test keeps the invariant where its work keeps MODE and the bijection. -/
theorem handleInv_of_session {i : Instr} (hi : i.mnemonic ∈ [Mnemonic.encb, .decb, .final]) {s t : State} (hs : HandleInv s)
    (herr : Spec.errorOf i s.mode = .ok) (hmode : t.mode = s.mode) (hpv : isPermutation s.pv → isPermutation t.pv) :
    HandleInv t := by
  have hsession : s.mode ≠ .idle := fun hidle => by simp [errorOf_session hi, hidle] at herr
  exact (handleInv_iff_of_session (hmode ▸ hsession)).mpr (hpv ((handleInv_iff_of_session hsession).mp hs))

/-- The work of every command keeps the handle's invariant. -/
theorem handleInv_workOf {i : Instr} {s : State} (hs : HandleInv s) (herr : Spec.errorOf i s.mode = .ok) :
    HandleInv (workOf i s).1 := by
  have moves : ∀ s : State, isPermutation s.pv → isPermutation (fourMoves s).pv := fun _ => isPermutation_fourMoves
  cases i with
  | ldk | stat => exact hs
  | initk len =>
    obtain ⟨hpos, hlen⟩ := errorOf_initk_eq_ok_iff.mp herr
    exact isPermutation_keySchedule s hpos hlen
  | initd => exact isPermutation_fill digestPv_bijective
  | encb | decb => exact handleInv_of_session (by simp [Instr.mnemonic]) hs herr rfl (moves (indexUpdate s))
  | final len =>
    obtain ⟨hframe, -⟩ := finalBody_frame len s
    exact handleInv_of_session (by simp [Instr.mnemonic]) hs herr hframe.mode (finalBody_keeps_pv moves len)
  | scrub => exact ⟨fun _ => rfl, rfl, rfl, rfl, rfl, rfl⟩

theorem handleInv_kept : KeptByStep HandleInv where
  work hs _ herr := handleInv_workOf hs herr
  error hs _ := hs
  ports hs := hs
  take hs := hs
  assert hs := hs
  release := ⟨fun _ => rfl, rfl, rfl, rfl, rfl, rfl⟩

/-- Settles O34: the key schedule and the digest handle make a bijection, the moves keep one, and SCRUB and reset zero the
handle. -/
theorem stepKeepsThePermutation : Obligations.StepKeepsThePermutation := handleInv_kept.step

/-! ## The canonical form -/

/-- The moves keep PV in canonical form. -/
theorem wf_fourMoves_pv (s : State) (h : Memory.wf s.pv = true) : Memory.wf (fourMoves s).pv = true := by
  rw [fourMoves_pv]
  exact Memory.wf_write _ _ (Memory.wf_write _ _ (Memory.wf_write _ _ (Memory.wf_write _ _ h)))

/-- The work of every command keeps both memories in canonical form. -/
theorem memoryInv_workOf (i : Instr) {s : State} (hs : MemoryInv s) : MemoryInv (workOf i s).1 := by
  obtain ⟨hpv, hkeybuf⟩ := hs
  cases i with
  | ldk idx byte => exact ⟨hpv, Memory.wf_write idx byte hkeybuf⟩
  | initk len =>
    obtain ⟨-, hframe, -⟩ := keySchedule_frame len s
    exact ⟨wf_keySchedule_pv len s, hframe.symm ▸ hkeybuf⟩
  | initd => exact ⟨Memory.wf_fill Config.digestPv, hkeybuf⟩
  | encb | decb => exact ⟨wf_fourMoves_pv (indexUpdate s) hpv, hkeybuf⟩
  | final len =>
    obtain ⟨hframe, -⟩ := finalBody_frame len s
    exact ⟨finalBody_keeps_pv (P := fun m => Memory.wf m = true) wf_fourMoves_pv len hpv, hframe.keybuf.symm ▸ hkeybuf⟩
  | scrub => exact ⟨rfl, rfl⟩
  | stat => exact ⟨hpv, hkeybuf⟩

theorem memoryInv_kept : KeptByStep MemoryInv where
  work hs _ _ := memoryInv_workOf _ hs
  error hs _ := hs
  ports hs := hs
  take hs := hs
  assert hs := hs
  release := ⟨rfl, rfl⟩

/-- Settles O35: a write and a fill keep the canonical form, and every memory a command leaves is made by them. -/
theorem stepKeepsMemoriesCanonical : Obligations.StepKeepsMemoriesCanonical := memoryInv_kept.step

/-! ## The transients (R23) -/

theorem quietInv_kept : KeptByStep QuietInv where
  work _ _ _ := rfl
  error _ _ := rfl
  ports hs := hs
  take hs := hs
  assert hs := hs
  release := rfl

/-- Settles O36: a command ends with the transients at zero, and no action of the host writes them but by reset. -/
theorem stepKeepsTransientsZero : Obligations.StepKeepsTransientsZero := quietInv_kept.step

/-! ## The response (R52, R53) -/

/-- Settles O25: the five fields, each read back. -/
theorem responseWordFields : Obligations.ResponseWordFields := fun e m last out =>
  ⟨rspErr_responseWord e m last out, rspMode_responseWord e m last out, rspLast_responseWord e m last out,
    rspDv_responseWord e m last out, rspDataField_responseWord e m last out⟩

/-- A status word is one the engine can produce. -/
theorem wordFits_status (e : ErrCode) (m : Mode) (last : Bool) : wordFits m (responseWord e m last none) := by
  refine ⟨rspMode_responseWord .., ?_, ?_, ?_⟩
  · rw [rspErr_responseWord]
    cases e <;> decide
  · simp
  · simp

/-- So is a data word. -/
theorem wordFits_data (m : Mode) (last : Bool) (b : Byte) : wordFits m (responseWord .ok m last (some b)) := by
  refine ⟨rspMode_responseWord .., ?_, ?_, ?_⟩
  · rw [rspErr_responseWord]
    decide
  · exact fun _ => rspErr_responseWord ..
  · simp

/-- The words of a response are the rest of one: nothing is taken yet. -/
theorem responseTail_responseWords (e : ErrCode) (m : Mode) (out : List Byte) : responseTail m (responseWords e m out) := by
  have data (b : Byte) (bs : List Byte) : responseTail m (dataWords m (b :: bs)) := by
    induction bs generalizing b with
    | nil => exact ⟨wordFits_data m true b, rspLast_responseWord ..⟩
    | cons b' bs ih =>
      have hrest := ih b'
      cases bs with
      | nil => exact ⟨wordFits_data m false b, rspLast_responseWord .., hrest⟩
      | cons => exact ⟨wordFits_data m false b, rspLast_responseWord .., hrest⟩
  cases out with
  | nil => exact ⟨wordFits_status e m true, rspLast_responseWord ..⟩
  | cons b bs => exact data b bs

/-- Taking a word leaves the rest of the response. -/
theorem responseTail_tail {m : Mode} {ws : List RspWord} (h : responseTail m ws) : responseTail m ws.tail := by
  match ws, h with
  | [], _ => trivial
  | [_], _ => trivial
  | _ :: _ :: _, ⟨_, _, hrest⟩ => exact hrest

theorem responseInv_kept : KeptByStep ResponseInv where
  work _ _ _ := responseTail_responseWords ..
  error _ _ := responseTail_responseWords _ _ []
  ports hs := hs
  take hs := responseTail_tail hs
  assert _ := trivial
  release := trivial

/-- Settles O37: a command answers one whole response, and the host takes its words from the front or drops them all. -/
theorem stepKeepsResponsesWellFormed : Obligations.StepKeepsResponsesWellFormed := responseInv_kept.step

/-! ## No word during reset (R121) -/

theorem resetInv_kept : KeptByStep ResetInv where
  work {i s} _ hlow _ hhigh := by
    obtain ⟨-, hreset, -⟩ := workOf_ports i s
    rw [respond_inReset, ← hreset, hlow] at hhigh
    cases hhigh
  error _ hlow hhigh := by
    rw [raise_inReset, hlow] at hhigh
    cases hhigh
  ports hs := hs
  take hs hhigh := by rw [hs hhigh, List.tail_nil]
  assert _ _ := rfl
  release _ := rfl

/-- Settles O48: only a step with `rst` low puts a word on the port, and raising `rst` drops it. -/
theorem stepKeepsNoWordDuringReset : Obligations.StepKeepsNoWordDuringReset := resetInv_kept.step

/-- Settles O38: each invariant holds at reset, where every step that releases `rst` returns to. -/
theorem resetIsSafe : Obligations.ResetIsSafe :=
  ⟨⟨handleInv_kept.release, memoryInv_kept.release, quietInv_kept.release, responseInv_kept.release, resetInv_kept.release⟩,
    rfl, fun _ => rfl, rfl, rfl⟩

end Sys2Proof.Machine
end

section
/-! PROOFS. The ports: which word a step accepts, what a pending response word holds up, and how a response drains
(30_encoding R45; 60_exceptions R107, R113; 70_reset R121, R122, R127 to R132). -/

namespace Sys2Proof.Machine

/-! ## Accepting a word -/

/-- While a response word is pending no word is accepted (R128). -/
theorem fetch_eq_none_of_pending {s : State} (h : s.rsp ≠ []) : fetch s = none := by
  rw [Option.eq_none_iff_forall_ne_some]
  intro w hfetch
  exact h (fetch_eq_some.mp hfetch).1

/-- A step that accepts a word runs it. -/
theorem step_of_fetch {s : State} {w : CmdWord} (h : fetch s = some w) : step s = execWord w (consume s) := by
  simp only [step, h]

/-- A step that accepts none gives the host its turn. -/
theorem step_of_no_fetch {s : State} (h : fetch s = none) : step s = hostTurn s := by
  simp only [step, h]

/-- Settles O39: the word is accepted, and runs its command. -/
theorem stepRunsTheDecodedCommand : Obligations.StepRunsTheDecodedCommand := by
  intro s w i hrsp hreset hoffered hdecode
  rw [step_of_fetch (fetch_eq_some.mpr ⟨hrsp, hreset, hoffered⟩), execWord_of_decode_ok hdecode]
  rfl

/-- Settles O40: the word is accepted, and raises IllegalCommand. -/
theorem illegalWordRaisesIllegalCommand : Obligations.IllegalWordRaisesIllegalCommand := by
  intro s w hrsp hreset hoffered hillegal
  rw [step_of_fetch (fetch_eq_some.mpr ⟨hrsp, hreset, hoffered⟩), execWord_of_illegal hillegal]
  rfl

/-! ## Completion (R113) -/

/-- Every word completes. -/
theorem execWord_completes (w : CmdWord) (s : State) : ∃ t, execWord w s = .next t := by
  cases hdecode : decode w with
  | ok i => exact ⟨_, (execWord_of_decode_ok hdecode s).trans (exec_eq i s)⟩
  | error e => exact ⟨_, execWord_of_decode_error hdecode s⟩

/-- An action of the host is refused only where it replaces the word it still offers (R127). -/
theorem hostAct_completes_or_refused (act : HostAct) (s : State) :
    (∃ t, hostAct act s = .next t) ∨
      hostAct act s = .refused .cmdDataChanged ∧ ∃ v w, s.offered = some v ∧ act = .raiseCmd w ∧ v ≠ w := by
  obtain ⟨_, -, -, h⟩ | ⟨_, -, -, h⟩ | ⟨w, v, hact, hoffered, hne, h⟩ | ⟨-, h⟩ | ⟨-, h⟩ | ⟨-, h⟩ | ⟨-, h⟩ := hostAct_cases act s
  case inr.inr.inl => exact .inr ⟨h, v, w, hoffered, hact, hne⟩
  all_goals exact .inl ⟨_, h⟩

/-- Settles O45: every command ends, and a turn of the host is refused in one case. -/
theorem onlyTheHostCanLeaveTheModel : Obligations.OnlyTheHostCanLeaveTheModel := by
  refine ⟨fun i s => ⟨_, exec_eq i s⟩, fun s => ?_⟩
  obtain ⟨w, -, hstep⟩ | ⟨hfetch, hstep⟩ := step_cases s
  · exact .inl (hstep ▸ execWord_completes w (consume s))
  · cases hhost : s.host with
    | nil => exact .inl ⟨s, hstep.trans (hostTurn_of_nil hhost)⟩
    | cons act rest =>
      rw [hstep, hostTurn_of_cons hhost]
      refine (hostAct_completes_or_refused act _).imp_right ?_
      rintro ⟨hrefused, v, w, hoffered, rfl, hne⟩
      exact ⟨hrefused, v, w, rest, hoffered, rfl, hne, hfetch⟩

/-! ## Pending words (R128, R131) -/

theorem SameArch.refl (s : State) : SameArch s s := ⟨rfl, rfl, rfl, rfl, rfl, rfl, rfl, rfl⟩

theorem SameArch.trans {s t u : State} (h : SameArch s t) (k : SameArch t u) : SameArch s u := by
  obtain ⟨hpv, hradix, hpride, hchasm, hleft, hright, hmode, hkeybuf⟩ := h
  obtain ⟨kpv, kradix, kpride, kchasm, kleft, kright, kmode, kkeybuf⟩ := k
  exact ⟨hpv.trans kpv, hradix.trans kradix, hpride.trans kpride, hchasm.trans kchasm, hleft.trans kleft,
    hright.trans kright, hmode.trans kmode, hkeybuf.trans kkeybuf⟩

/-- Settles O41: no word is accepted, so the step is a turn of the host, read case by case. -/
theorem noCommandStartsBeforeTheResponseIsTaken : Obligations.NoCommandStartsBeforeTheResponseIsTaken := by
  intro s t hpending hstep
  have hfetch := fetch_eq_none_of_pending hpending
  refine ⟨hfetch, ?_⟩
  rw [step_of_no_fetch hfetch] at hstep
  cases hostTurn_cases hstep with
  | pause hhost ht =>
    subst ht
    simp [hhost, SameArch.refl]
  | offer act rest o hhost hact ht =>
    subst ht
    obtain rfl | ⟨w, rfl⟩ := hact <;> simp [hhost, SameArch]
  | take rest hhost ht =>
    subst ht
    simp [hhost, SameArch]
  | assert rest hhost ht =>
    subst ht
    simp [hhost, SameArch]
  | release rest hhost hreset ht =>
    subst ht
    simp [hhost, hreset, SameArch, State.reset]
  | stayLow rest hhost hreset ht =>
    subst ht
    simp [hhost, hreset, SameArch]

/-- A host that takes no word and does not raise `rst`, an engine with a word pending and `rst` low (R131). -/
structure Stuck (s : State) : Prop where
  pending : s.rsp ≠ []
  low : s.inReset = false
  idle : ∀ a ∈ s.host, a ≠ .takeRsp ∧ a ≠ .assertRst

/-- One step leaves a stuck engine stuck, with the same words pending and the same state. -/
theorem Stuck.step {s t : State} (h : Stuck s) (hstep : step s = .next t) : Stuck t ∧ t.rsp = s.rsp ∧ SameArch s t := by
  obtain ⟨hpending, hlow, hidle⟩ := h
  have hturn : hostTurn s = .next t := step_of_no_fetch (fetch_eq_none_of_pending hpending) ▸ hstep
  have hrest {act : HostAct} {rest : List HostAct} (hhost : s.host = act :: rest) :
      (act ≠ .takeRsp ∧ act ≠ .assertRst) ∧ ∀ a ∈ rest, a ≠ .takeRsp ∧ a ≠ .assertRst :=
    List.forall_mem_cons.mp (hhost ▸ hidle)
  cases hostTurn_cases hturn with
  | pause _ ht => exact ht.symm ▸ ⟨⟨hpending, hlow, hidle⟩, rfl, .refl s⟩
  | offer _ _ _ hhost _ ht => exact ht ▸ ⟨⟨hpending, hlow, (hrest hhost).2⟩, rfl, .refl s⟩
  | take _ hhost _ => exact absurd rfl (hrest hhost).1.1
  | assert _ hhost _ => exact absurd rfl (hrest hhost).1.2
  | release _ _ hhigh _ => exact absurd (hhigh.symm.trans hlow) (by decide)
  | stayLow _ hhost _ ht => exact ht ▸ ⟨⟨hpending, hlow, (hrest hhost).2⟩, rfl, .refl s⟩

/-- Any number of steps leaves a stuck engine as it was: each does. -/
theorem Stuck.run {n : Nat} {s t : State} (h : Stuck s) (hrun : core.run n s = .next t) :
    Stuck t ∧ t.rsp = s.rsp ∧ SameArch s t := by
  induction n generalizing s with
  | zero =>
    obtain rfl : s = t := Host.Outcome.next.inj hrun
    exact ⟨h, rfl, .refl s⟩
  | succ n ih =>
    obtain ⟨u, hstep, hrest⟩ := run_succ_inv n hrun
    obtain ⟨hstuck, hrsp, hsame⟩ := h.step hstep
    obtain ⟨hstuck', hrsp', hsame'⟩ := ih hstuck hrest
    exact ⟨hstuck', hrsp'.trans hrsp, SameArch.trans hsame hsame'⟩

/-- Settles O42: the engine is stuck and stays so. -/
theorem undrainedHostIsStuck : Obligations.UndrainedHostIsStuck := by
  intro n s t hpending hlow hidle hrun
  obtain ⟨hstuck, hrsp, hsame⟩ := Stuck.run ⟨hpending, hlow, hidle⟩ hrun
  exact ⟨hrsp, hsame, fetch_eq_none_of_pending hstuck.pending⟩

/-! ## Reset (R121, R122) -/

/-- Settles O43: the first step raises `rst`, so that the second accepts no word and releases it. -/
theorem resetReachesTheResetState : Obligations.ResetReachesTheResetState := by
  intro s rest hfetch hhost
  have hassert : step s = .next { s with rsp := [], inReset := true, host := .releaseRst :: rest } := by
    rw [step_of_no_fetch hfetch, hostTurn_of_cons hhost]
    rfl
  rw [run_succ_of_next 1 hassert, run_succ_of_next (t := { State.reset with offered := s.offered, host := rest }) 0 rfl]
  rfl

/-! ## Draining (R132) -/

/-- A host that takes as many words as are pending empties the port and changes nothing else. -/
theorem run_takeRsp {ws : List RspWord} {s : State} {rest : List HostAct} (hrsp : s.rsp = ws)
    (hhost : s.host = List.replicate ws.length .takeRsp ++ rest) :
    core.run ws.length s = .next { s with rsp := [], host := rest } := by
  induction ws generalizing s with
  | nil =>
    obtain rfl : s.host = rest := hhost
    exact congrArg Host.Outcome.next (by rw [← hrsp])
  | cons w ws ih =>
    have hpending : s.rsp ≠ [] := by simp [hrsp]
    have htake : step s = .next { s with rsp := ws, host := List.replicate ws.length .takeRsp ++ rest } := by
      rw [step_of_no_fetch (fetch_eq_none_of_pending hpending), hostTurn_of_cons hhost]
      simp [hostAct, hrsp]
    rw [List.length_cons, run_succ_of_next _ htake, ih rfl rfl]

/-- A command answers one word, or one for each output byte if it has any (R53). -/
theorem endOf_rsp_length (i : Instr) (s : State) : (endOf i s).rsp.length = max 1 (Spec.outputs i s.mode) := by
  cases exec_ends i s with
  | error herr hout _ => rw [endOf_of_error herr, raise_rsp, responseWords_length, hout, List.length_nil]
  | ok _ out t hout hexec =>
    have hend : endOf i s = respond out t := Host.Outcome.next.inj ((exec_eq i s).symm.trans hexec)
    rw [hend, respond_rsp, responseWords_length, hout]

/-- FINAL has the most output bytes (R47, R53). -/
theorem outputs_le (i : Instr) (m : Mode) : Spec.outputs i m ≤ 65535 := by
  have hlen (len : BitVec 16) : len.toNat ≤ 65535 := Nat.le_of_lt_succ len.isLt
  unfold Spec.outputs
  split <;> simp [hlen]

/-- Every word completes with 1 to 65535 response words, and leaves the ports alone (R53, R132). -/
theorem execWord_answers (w : CmdWord) (s : State) :
    ∃ t, execWord w s = .next t ∧ 1 ≤ t.rsp.length ∧ t.rsp.length ≤ 65535 ∧ SamePorts s t := by
  cases hdecode : decode w with
  | error e => exact ⟨_, execWord_of_decode_error hdecode s, le_rfl, by simp [responseWords_length], rfl, rfl, rfl⟩
  | ok i =>
    refine ⟨_, (execWord_of_decode_ok hdecode s).trans (exec_eq i s), ?_⟩
    have hlen := endOf_rsp_length i s
    have hmost := outputs_le i s.mode
    exact ⟨by omega, by omega, endOf_ports i s⟩

/-- Settles O44: the word completes, which leaves the host's actions alone, and each of its takings shortens the response. -/
theorem acceptedWordsCompleteAndDrain : Obligations.AcceptedWordsCompleteAndDrain := by
  intro s w hfetch
  obtain ⟨t, hexec, hpos, hle, -, hreset, hhost⟩ := execWord_answers w (consume s)
  have hstep : step s = .next t := (step_of_fetch hfetch).trans hexec
  have hlow : (consume s).inReset = false := (fetch_eq_some.mp hfetch).2.1
  refine ⟨t, hstep, hpos, hle, hhost.symm, fun rest hdrain => ⟨?_, ?_⟩⟩
  · rw [run_succ_of_next _ hstep]
    exact run_takeRsp rfl (hhost.symm.trans hdrain)
  · simp only [cmdReady, ← hreset, hlow]
    rfl

end Sys2Proof.Machine
end

section
/-! PROOFS. The columns of the access matrix: what each command writes, and that KEYBUF reaches INITK alone (10_state sections
4, 11 and 12). -/

namespace Sys2Proof.Machine

/-! ## What the work of a command writes (R29) -/

/-- MODE after the work of a command (R29). -/
def modeAfter : Instr → Mode → Mode
  | .initk _, _ => .keyed
  | .initd, _ => .digest
  | .scrub, _ => .idle
  | .ldk _ _, m => m
  | .encb _, m => m
  | .decb _, m => m
  | .final _, m => m
  | .stat, m => m

theorem workOf_mode (i : Instr) (s : State) : (workOf i s).1.mode = modeAfter i s.mode := by
  cases i with
  | final len => exact (finalBody_frame len s).1.mode
  | ldk | initk | initd | encb | decb | scrub | stat => rfl

/-- Only LDK and SCRUB write KEYBUF. -/
theorem workOf_keybuf {i : Instr} (h : i.mnemonic ∉ [Mnemonic.ldk, .scrub]) (s : State) :
    (workOf i s).1.keybuf = s.keybuf := by
  cases i with
  | ldk | scrub => simp [Instr.mnemonic] at h
  | initk len =>
    obtain ⟨-, hkeybuf, -⟩ := keySchedule_frame len s
    exact hkeybuf
  | final len => exact (finalBody_frame len s).1.keybuf
  | initd | encb | decb | stat => rfl

/-- MODE stays but for INITK, INITD and SCRUB. -/
theorem modeAfter_eq {i : Instr} (h : i.mnemonic ∉ [Mnemonic.initk, .initd, .scrub]) (m : Mode) : modeAfter i m = m := by
  cases i with
  | initk | initd | scrub => simp [Instr.mnemonic] at h
  | ldk | encb | decb | final | stat => rfl

/-- LDK and STAT leave the handle alone. -/
theorem handleOf_workOf {i : Instr} (h : i.mnemonic ∈ [Mnemonic.ldk, .stat]) (s : State) :
    Spec.handleOf (workOf i s).1 = Spec.handleOf s := by
  cases i with
  | ldk | stat => rfl
  | initk | initd | encb | decb | final | scrub => simp [Instr.mnemonic] at h

/-- LDK writes the entry of its own index only. -/
theorem read_workOf_ldk {idx k : Byte} (byte : Byte) (h : k ≠ idx) (s : State) :
    Memory.read (workOf (.ldk idx byte) s).1.keybuf k = Memory.read s.keybuf k := Memory.read_write_other s.keybuf byte h

/-- Settles O29: the work of a command writes its columns only, and an error none. -/
theorem commandsWriteOnlyTheirColumns : Obligations.CommandsWriteOnlyTheirColumns := by
  intro i s t hexec
  obtain rfl : endOf i s = t := Host.Outcome.next.inj ((exec_eq i s).symm.trans hexec)
  refine ⟨endOf_ports i s, endOf_transients i s, ?_⟩
  unfold endOf
  split
  · refine ⟨fun h k => ?_, fun h => ?_, fun h => ?_, ?_⟩
    · rw [respond_keybuf, workOf_keybuf h]
    · rw [respond_mode, workOf_mode, modeAfter_eq h]
    · have hhandle := handleOf_workOf h s
      simp only [Spec.handleOf, Spec.Handle.mk.injEq] at hhandle
      obtain ⟨hpv, hregisters⟩ := hhandle
      exact ⟨congrFun hpv, hregisters⟩
    · rintro idx byte rfl k hk
      exact read_workOf_ldk byte hk s
  · exact ⟨fun _ _ => rfl, fun _ => rfl, fun _ => ⟨fun _ => rfl, rfl, rfl, rfl, rfl, rfl⟩, fun _ _ _ _ _ => rfl⟩

/-! ## KEYBUF reaches INITK alone -/

/-- ENCB's work on the handle is a function of the handle (R80). -/
theorem sameHandle_encbBody {s s' : State} (h : Spec.sameHandle s s') (byte : Byte) :
    Spec.sameHandle (encbBody byte s) (encbBody byte s') := by
  obtain ⟨⟨hpv, hradix, hpride, hchasm, -, -⟩, hmix⟩ := transform_congr h
  exact ⟨hpv, hradix, hpride, hchasm, rfl, congrArg (byte ^^^ ·) hmix⟩

/-- So is DECB's (R81). -/
theorem sameHandle_decbBody {s s' : State} (h : Spec.sameHandle s s') (byte : Byte) :
    Spec.sameHandle (decbBody byte s) (decbBody byte s') := by
  obtain ⟨⟨hpv, hradix, hpride, hchasm, -, -⟩, hmix⟩ := transform_congr h
  exact ⟨hpv, hradix, hpride, hchasm, congrArg (byte ^^^ ·) hmix, rfl⟩

/-- So is the whitening pass (R95). -/
theorem sameHandle_whiten (k : Nat) {s s' : State} (h : Spec.sameHandle s s') :
    Spec.sameHandle (whiten k s) (whiten k s') := by
  induction k generalizing s s' with
  | zero => exact h
  | succ k ih =>
    have hstart : Spec.sameHandle { s with transients.w := BitVec.ofNat 9 k }
      { s' with transients.w := BitVec.ofNat 9 k } := h
    rw [whiten_succ, whiten_succ]
    exact ih (sameHandle_encbBody hstart _)

/-- So is the squeeze, its outputs among it (R95). -/
theorem sameHandle_squeeze (k : Nat) {s s' : State} (h : Spec.sameHandle s s') :
    Spec.sameHandle (squeeze k s).1 (squeeze k s').1 ∧ (squeeze k s).2 = (squeeze k s').2 := by
  induction k generalizing s s' with
  | zero => exact ⟨h, rfl⟩
  | succ k ih =>
    have hbody := sameHandle_encbBody (s := { s with transients.n := s.transients.n + 1 })
      (s' := { s' with transients.n := s'.transients.n + 1 }) h 0
    obtain ⟨hhandle, hout⟩ := ih hbody
    obtain ⟨-, -, -, -, -, hright⟩ := hbody
    rw [squeeze_succ, squeeze_succ]
    exact ⟨hhandle, congrArg₂ List.cons hright hout⟩

/-- The work of every command but INITK is a function of the handle: KEYBUF, MODE, transients and the ports play no part. -/
theorem sameHandle_workOf {i : Instr} (hi : i.mnemonic ≠ .initk) {s s' : State} (h : Spec.sameHandle s s') :
    Spec.sameHandle (workOf i s).1 (workOf i s').1 ∧ (workOf i s).2 = (workOf i s').2 := by
  cases i with
  | ldk | stat => exact ⟨h, rfl⟩
  | initk => exact absurd rfl hi
  | initd | scrub => exact ⟨⟨rfl, rfl, rfl, rfl, rfl, rfl⟩, rfl⟩
  | encb byte =>
    have hbody := sameHandle_encbBody h byte
    have ⟨_, _, _, _, _, hright⟩ := hbody
    exact ⟨hbody, congrArg (fun b => [b]) hright⟩
  | decb byte =>
    have hbody := sameHandle_decbBody h byte
    have ⟨_, _, _, _, hleft, _⟩ := hbody
    exact ⟨hbody, congrArg (fun b => [b]) hleft⟩
  | final len =>
    have hwhitened (k : Nat) : Spec.sameHandle { whiten k s with transients.n := 0 } { whiten k s' with transients.n := 0 } :=
      sameHandle_whiten k h
    exact sameHandle_squeeze len.toNat (hwhitened Config.whitenSteps)

/-- Two commands that end on the same handle, MODE and ports with the same response leave states that differ in KEYBUF only. -/
theorem respond_eq_of_sameHandle {s s' : State} {out : List Byte} (h : Spec.sameHandle s s') (hmode : s.mode = s'.mode)
    (hports : SamePorts s s') : respond out s' = { respond out s with keybuf := s'.keybuf } := by
  obtain ⟨hpv, hradix, hpride, hchasm, hleft, hright⟩ := h
  obtain ⟨hoffered, hreset, hhost⟩ := hports
  simp only [respond_eq, hpv, hradix, hpride, hchasm, hleft, hright, hmode, hoffered, hreset, hhost]

/-- From two states that differ in KEYBUF only, every command but INITK ends in states that differ in KEYBUF only. -/
theorem endOf_of_keybuf {i : Instr} (hi : i.mnemonic ≠ .initk) (s : State) (k : Memory) :
    endOf i { s with keybuf := k } = { endOf i s with keybuf := (endOf i { s with keybuf := k }).keybuf } := by
  unfold endOf
  split
  · obtain ⟨hhandle, hout⟩ := sameHandle_workOf hi (s := s) (s' := { s with keybuf := k }) ⟨rfl, rfl, rfl, rfl, rfl, rfl⟩
    have hmode : (workOf i s).1.mode = (workOf i { s with keybuf := k }).1.mode := by rw [workOf_mode, workOf_mode]
    obtain ⟨hoffered, hreset, hhost⟩ := workOf_ports i s
    obtain ⟨hoffered', hreset', hhost'⟩ := workOf_ports i { s with keybuf := k }
    rw [← hout]
    exact respond_eq_of_sameHandle hhandle hmode
      ⟨hoffered.symm.trans hoffered', hreset.symm.trans hreset', hhost.symm.trans hhost'⟩
  · rfl

/-- Settles O30: both commands complete, and their ends differ in KEYBUF only. -/
theorem keybufReachesOnlyInitk : Obligations.KeybufReachesOnlyInitk := fun i s k hi =>
  ⟨_, _, exec_eq i s, exec_eq i { s with keybuf := k }, endOf_of_keybuf hi s k⟩

/-! ## The input byte of ENCB -/

/-- Settles O18: the two bodies differ in the input byte only, which the transform does not read. -/
theorem mixDoesNotReadTheInput : Obligations.MixDoesNotReadTheInput := by
  intro p q s hsession
  refine ⟨_, _, exec_encb hsession p, exec_encb hsession q, rfl, rfl, rfl, rfl, ?_⟩
  have hcancel (m : Byte) : (p ^^^ m) ^^^ (q ^^^ m) = p ^^^ q := by
    rw [BitVec.xor_comm q, ← BitVec.xor_assoc, BitVec.xor_assoc p, BitVec.xor_self, BitVec.xor_zero]
  exact hcancel (transform s).transients.mix

end Sys2Proof.Machine
end

section
/-! PROOFS. The key buffer: LDK, sequences of LDK, and the pseudo-instruction KEY (20_memory R31, R32; 30_encoding R56;
40_key_schedule R63). -/

namespace Sys2Proof.Machine

/-- Settles O8: one write to KEYBUF, and the end of a command without output. -/
theorem ldkStoresOneKeyByte : Obligations.LdkStoresOneKeyByte := by
  intro idx byte s
  refine ⟨formatK_toNat 0x01 idx byte, _, exec_ldk idx byte s, Memory.read_write_same _ _ _,
    fun j hj => Memory.read_write_other _ byte hj, fun _ => rfl, ?_⟩
  rw [respond_nil_eq]

/-! ## Sequences of LDK -/

/-- The LDK of a pair of index and byte. -/
def loadCommand (p : Byte × Byte) : Instr := .ldk p.1 p.2

/-- A memory after the loads of a list of pairs, first pair first. -/
def loadAll (loads : List (Byte × Byte)) (m : Memory) : Memory := loads.foldl (fun m p => Memory.write m p.1 p.2) m

/-- A sequence of LDK makes its loads and keeps MODE; every response is a status word (R63). -/
theorem execAll_loads (loads : List (Byte × Byte)) (s : State) :
    ∃ t, execAll (loads.map loadCommand) s = .next (t, List.replicate loads.length (Spec.statusWord 0 s.mode)) ∧
      t.keybuf = loadAll loads s.keybuf := by
  induction loads generalizing s with
  | nil => exact ⟨s, rfl, rfl⟩
  | cons p loads ih =>
    obtain ⟨t, hrun, hkeybuf⟩ := ih (nextStart { s with keybuf := Memory.write s.keybuf p.1 p.2 })
    exact ⟨t, execAll_cons_respond (exec_ldk p.1 p.2 s) hrun, hkeybuf⟩

/-- An entry holds the byte of the last load of its index, or what it held before. -/
theorem read_loadAll (loads : List (Byte × Byte)) (m : Memory) (k : Byte) :
    Memory.read (loadAll loads m) k = ((loads.reverse.find? fun p => p.1 == k).map Prod.snd).getD (Memory.read m k) := by
  induction loads generalizing m with
  | nil => rfl
  | cons p loads ih =>
    rw [show loadAll (p :: loads) m = loadAll loads (Memory.write m p.1 p.2) from rfl, ih, List.reverse_cons, List.find?_append,
      Memory.read_write]
    cases loads.reverse.find? fun p => p.1 == k with
    | some q => rfl
    | none =>
      by_cases hk : k = p.1
      · simp [hk]
      · simp [hk, Ne.symm hk]

/-- Settles O7: SCRUB leaves every entry 0, and the loads after it are read back. -/
theorem keybufHoldsTheLastByteLoaded : Obligations.KeybufHoldsTheLastByteLoaded := by
  intro loads s
  obtain ⟨t, hrun, hkeybuf⟩ := execAll_loads loads (nextStart (zeroise s))
  refine ⟨t, _, execAll_cons_respond (exec_scrub s) hrun, fun k => ?_⟩
  rw [hkeybuf, read_loadAll]
  rfl

/-! ## KEY -/

/-- The loads of KEY's supply: the bytes in order, from index `k` on (R56). -/
def keyLoads (k : Nat) (bs : List Byte) : List (Byte × Byte) := (bs.zipIdx k).map fun p => (BitVec.ofNat 8 p.2, p.1)

theorem keySupply_eq_loads (k : Nat) (bs : List Byte) : keySupply k bs = (keyLoads k bs).map loadCommand := by
  induction bs generalizing k with
  | nil => rfl
  | cons b bs ih =>
    rw [keySupply, ih]
    rfl

/-- The loads of KEY stay below its length. -/
theorem index_lt_of_mem_keyLoads {bs : List Byte} (hlen : bs.length ≤ 256) {p : Byte × Byte} (hp : p ∈ keyLoads 0 bs) :
    p.1.toNat < bs.length := by
  obtain ⟨⟨b, i⟩, hq, rfl⟩ := List.mem_map.mp hp
  have hi : i < bs.length := by simpa using List.snd_lt_of_mem_zipIdx hq
  rw [BitVec.toNat_ofNat, Nat.mod_eq_of_lt (by omega)]
  exact hi

/-- The supply of KEY: KEYBUF holds the bytes from index 0 on and what it held above them; every response is a status word. -/
theorem execAll_keySupply_zero {bs : List Byte} (hlen : bs.length ≤ 256) (s : State) :
    ∃ t, execAll (keySupply 0 bs) s = .next (t, List.replicate bs.length (Spec.statusWord 0 s.mode)) ∧
      ∀ k : Byte, Memory.read t.keybuf k = bs.getD k.toNat (Memory.read s.keybuf k) := by
  obtain ⟨t, hrun, -, hloaded⟩ := execAll_keySupply bs (k := 0) (by omega) s
  obtain ⟨t', hrun', hkeybuf⟩ := execAll_loads (keyLoads 0 bs) s
  obtain rfl : t' = t := by
    rw [← keySupply_eq_loads, hrun] at hrun'
    exact (Prod.mk.inj (Host.Outcome.next.inj hrun')).1.symm
  refine ⟨t', hrun, fun k => ?_⟩
  by_cases hk : k.toNat < bs.length
  · have hread := hloaded k.toNat hk
    rw [Nat.zero_add, BitVec.ofNat_toNat, BitVec.setWidth_eq] at hread
    rw [hread, List.getD_eq_getElem bs _ hk]
  · have hnone : (keyLoads 0 bs).reverse.find? (fun p => p.1 == k) = none := by
      rw [List.find?_eq_none]
      rintro p hp hpk
      have hindex := index_lt_of_mem_keyLoads hlen (List.mem_reverse.mp hp)
      exact hk (beq_iff_eq.mp hpk ▸ hindex)
    rw [hkeybuf, read_loadAll, hnone, List.getD_eq_default _ _ (not_lt.mp hk)]
    rfl

/-- Settles O31: the supply loads the bytes, and INITK runs the key schedule on them. -/
theorem keyPseudoStartsTheSession : Obligations.KeyPseudoStartsTheSession := by
  intro bytes s hpos hlen
  have hnat := toNat_keyLength hlen
  have hpos' : 1 ≤ (BitVec.ofNat 16 bytes.length).toNat := hnat.symm ▸ hpos
  have hlen' : (BitVec.ofNat 16 bytes.length).toNat ≤ 256 := hnat.symm ▸ hlen
  obtain ⟨u, hsupply, hloaded⟩ := execAll_keySupply_zero hlen s
  obtain ⟨hmode, hkeybuf, -⟩ := keySchedule_frame (BitVec.ofNat 16 bytes.length) u
  have hinitk := execAll_cons_respond (exec_initk u hpos' hlen') (execAll_nil _)
  have hhandle := handleOf_keySchedule u hpos' hlen'
  rw [hnat] at hhandle
  refine ⟨_, _, execAll_append hsupply hinitk, fun k => ?_, hmode, fun i => ?_, rfl⟩
  · exact (congrArg (Memory.read · k) hkeybuf).trans (hloaded k)
  · refine (congrFun (congrArg Spec.Handle.pv hhandle) i).trans ?_
    rw [show (nextStart (keySchedule (BitVec.ofNat 16 bytes.length) u)).keybuf = u.keybuf from hkeybuf]
    rfl

/-! ## keyrand (R70 to R72) -/

/-- A draw under the mask of a limit of 0 gives the candidate 0. -/
theorem draw_u_of_mask_zero (len : BitVec 16) {s : State} (h : s.transients.mask = maskFor 0) :
    (draw len s).transients.u = 0 := by
  rw [draw_u, h]
  exact BitVec.zero_and

/-- The attempts end at or below the limit: a candidate that fits, or a remainder (R70, R71). -/
theorem attempts_toswap_le (len : BitVec 16) (limit : Byte) (k : Nat) {s : State} (h : s.transients.mask = maskFor limit) :
    (attempts len limit k s).transients.toswap ≤ limit := by
  induction k generalizing s with
  | zero =>
    show (draw len s).transients.u % limit ≤ limit
    by_cases hlimit : limit = 0
    · subst hlimit
      rw [draw_u_of_mask_zero len h]
      exact BitVec.le_refl _
    · have hpos : 0 < limit := by bv_omega
      exact BitVec.le_of_lt (BitVec.umod_lt _ hpos)
  | succ k ih =>
    obtain ⟨hmask, -⟩ := draw_mask_rej len s
    rw [attempts]
    dsimp only
    split
    · assumption
    · exact ih (hmask.trans h)

/-- A keyrand call makes at least one draw. -/
theorem one_le_countReads_attemptsTrace (len : BitVec 16) (limit : Byte) (k : Nat) (s : State) :
    1 ≤ countReads .keybuf (attemptsTrace len limit k s) := by
  cases k with
  | zero => exact (countReads_drawTrace s).ge
  | succ k =>
    rw [attemptsTrace]
    split
    · exact (countReads_drawTrace s).ge
    · rw [countReads_append, countReads_drawTrace]
      exact Nat.le_add_right 1 _

/-- The swap index is at most the limit (R71). -/
theorem keyrand_toswap_le (len : BitVec 16) (limit : Byte) (s : State) : (keyrand len limit s).transients.toswap ≤ limit :=
  attempts_toswap_le len limit Config.maxRejections
    (s := { s with transients := { s.transients with mask := maskFor limit, rej := 0 } }) rfl

/-- A position of the shuffle touches no entry above it (R67). -/
theorem read_shufflePosition_above (len : BitVec 16) {i j : Byte} (h : i < j) (s : State) :
    Memory.read (shufflePosition len i s).pv j = Memory.read s.pv j := by
  have hne : j ≠ i := (BitVec.ne_of_lt h).symm
  have hne' : j ≠ (keyrand len i { s with transients.i := i }).transients.toswap :=
    (BitVec.ne_of_lt (Std.lt_of_le_of_lt (keyrand_toswap_le len i _) h)).symm
  rw [(shufflePosition_spec len i s).2]
  exact (Memory.read_write_other _ _ hne').trans (Memory.read_write_other _ _ hne)

/-- The shuffle of the positions below `k` touches no entry from `k` on (R67). -/
theorem read_shuffle_above (len : BitVec 16) {k : Nat} {j : Byte} (h : k ≤ j.toNat) (s : State) :
    Memory.read (shuffle len k s).pv j = Memory.read s.pv j := by
  induction k generalizing s with
  | zero => rfl
  | succ k ih =>
    have hlt : BitVec.ofNat 8 k < j := by
      rw [BitVec.lt_def, BitVec.toNat_ofNat]
      exact (Nat.mod_le _ _).trans_lt h
    exact (ih (Nat.le_of_succ_le h) _).trans (read_shufflePosition_above len hlt s)

/-- Settles O13: the candidates and remainders stay below the limit, the draws are counted on the attempts, and no position of
the shuffle touches an entry above it. -/
theorem keyrandStaysBelowItsLimit : Obligations.KeyrandStaysBelowItsLimit :=
  ⟨fun len limit s => ⟨keyrand_toswap_le len limit s, one_le_countReads_attemptsTrace len limit _ _,
    countReads_attemptsTrace_le len limit 11 _, fun hmask => countReads_keyrandTrace_of_mask_eq hmask len s⟩,
    fun len _ s _ h => read_shuffle_above len h s⟩

end Sys2Proof.Machine
end

section
/-! PROOFS. The assembler: which lines of a command are assembled and to which number, and that no line makes an illegal word
(30_encoding R55, R56; 95_test_vectors P4). -/

namespace Sys2Proof.Machine

/-! ## Lines of commands -/

/-- A list of one word, by number. -/
theorem eq_singleton_iff_toNat {words : List CmdWord} {w : CmdWord} {n : Nat} (h : w.toNat = n) :
    [w] = words ↔ words.map BitVec.toNat = [n] := by
  have hinjective : Function.Injective (List.map (BitVec.toNat (w := 32))) :=
    List.map_injective_iff.mpr fun _ _ => BitVec.eq_of_toNat_eq
  rw [← h, eq_comm]
  exact hinjective.eq_iff.symm

/-- The assembler of a command without operands. -/
theorem noOperand_iff {f : List Nat → Option (List CmdWord)} {w : CmdWord} {n : Nat} (hnil : f [] = some [w])
    (hcons : ∀ a as, f (a :: as) = none) (hw : w.toNat = n) (ns : List Nat) (words : List CmdWord) :
    f ns = some words ↔ ns = [] ∧ words.map BitVec.toNat = [n] := by
  cases ns with
  | nil => simp [hnil, eq_singleton_iff_toNat hw]
  | cons a as => simp [hcons]

/-- The assembler of a command with one operand, whose values that fit are those with `fits`. -/
theorem oneOperand_iff {f : List Nat → Option (List CmdWord)} {w : Nat → CmdWord} {fits : Nat → Prop} [DecidablePred fits]
    {base : Nat} (hnil : f [] = none) (hone : ∀ a, f [a] = if fits a then some [w a] else none)
    (hmore : ∀ a b as, f (a :: b :: as) = none) (hw : ∀ a, fits a → (w a).toNat = base + a) (ns : List Nat)
    (words : List CmdWord) :
    f ns = some words ↔ ∃ a, ns = [a] ∧ fits a ∧ words.map BitVec.toNat = [base + a] := by
  match ns with
  | [] => simp [hnil]
  | _ :: _ :: _ => simp [hmore]
  | [a] =>
    rw [hone]
    by_cases ha : fits a
    · simp [ha, eq_singleton_iff_toNat (hw a ha)]
    · simp [ha]

/-- LDK's two operands (R55). -/
theorem assembleLine_ldk_iff (ns : List Nat) (words : List CmdWord) :
    assembleLine ⟨.ldk, ns⟩ = some words ↔ ∃ idx byte, ns = [idx, byte] ∧ idx < 256 ∧ byte < 256 ∧
      words.map BitVec.toNat = [0x01000000 + idx * 256 + byte] := by
  match ns with
  | [] | [_] | _ :: _ :: _ :: _ => simp [assembleLine]
  | [idx, byte] =>
    by_cases hfit : idx < 256 ∧ byte < 256
    · obtain ⟨hidx, hbyte⟩ := hfit
      have hword : (encode (.ldk (BitVec.ofNat 8 idx) (BitVec.ofNat 8 byte))).toNat = 0x01000000 + idx * 256 + byte := by
        rw [encode, formatK_toNat, BitVec.toNat_ofNat, BitVec.toNat_ofNat, Nat.mod_eq_of_lt hidx, Nat.mod_eq_of_lt hbyte]
        rfl
      simp [assembleLine, hidx, hbyte, eq_singleton_iff_toNat hword]
    · have hreject : assembleLine ⟨.ldk, [idx, byte]⟩ = none := if_neg hfit
      rw [hreject]
      refine iff_of_false (by simp) ?_
      rintro ⟨idx', byte', heq, hidx, hbyte, -⟩
      cases heq
      exact hfit ⟨hidx, hbyte⟩

/-- A byte operand below 256 stands in its field. -/
theorem formatB_ofNat_toNat (op : Byte) {n : Nat} (h : n < 256) :
    (formatB op (BitVec.ofNat 8 n)).toNat = op.toNat * 0x1000000 + n := by
  rw [formatB_toNat, BitVec.toNat_ofNat, Nat.mod_eq_of_lt h]

/-- A length below 65536 stands in its field. -/
theorem formatL_ofNat_toNat (op : Byte) {n : Nat} (h : n < 65536) :
    (formatL op (BitVec.ofNat 16 n)).toNat = op.toNat * 0x1000000 + n := by
  rw [formatL_toNat, BitVec.toNat_ofNat, Nat.mod_eq_of_lt h]

/-- Settles O6: each command's line by the number of its operands, and its word by its format. -/
theorem assemblerGivesTheSumOrRejects : Obligations.AssemblerGivesTheSumOrRejects := by
  intro ns words
  refine ⟨assembleLine_ldk_iff ns words, ?_, ?_, ?_, ?_, ?_, ?_, ?_⟩
  · exact oneOperand_iff (f := fun ns => assembleLine ⟨.initk, ns⟩) rfl (fun _ => rfl) (fun _ _ _ => rfl)
      (fun _ h => formatL_ofNat_toNat 0x02 (h.trans_lt (by decide))) ns words
  · exact noOperand_iff (f := fun ns => assembleLine ⟨.initd, ns⟩) rfl (fun _ _ => rfl) rfl ns words
  · exact oneOperand_iff (f := fun ns => assembleLine ⟨.encb, ns⟩) rfl (fun _ => rfl) (fun _ _ _ => rfl)
      (fun _ h => formatB_ofNat_toNat 0x04 h) ns words
  · exact oneOperand_iff (f := fun ns => assembleLine ⟨.decb, ns⟩) rfl (fun _ => rfl) (fun _ _ _ => rfl)
      (fun _ h => formatB_ofNat_toNat 0x05 h) ns words
  · exact oneOperand_iff (f := fun ns => assembleLine ⟨.final, ns⟩) rfl (fun _ => rfl) (fun _ _ _ => rfl)
      (fun _ h => formatL_ofNat_toNat 0x06 h) ns words
  · exact noOperand_iff (f := fun ns => assembleLine ⟨.scrub, ns⟩) rfl (fun _ _ => rfl) rfl ns words
  · exact noOperand_iff (f := fun ns => assembleLine ⟨.stat, ns⟩) rfl (fun _ _ => rfl) rfl ns words

/-! ## Legal words only -/

/-- Words of well-formed commands. -/
def Encoded (words : List CmdWord) : Prop := ∃ is : List Instr, (∀ i ∈ is, i.wellFormed = true) ∧ words = is.map encode

/-- The word of a well-formed command is legal, since it decodes. -/
theorem Encoded.not_illegal {words : List CmdWord} (h : Encoded words) : ∀ w ∈ words, ¬ Spec.illegal w := by
  obtain ⟨is, hwf, rfl⟩ := h
  intro w hw
  obtain ⟨i, hi, rfl⟩ := List.mem_map.mp hw
  exact (decode_ok_iff_not_illegal _).mp ⟨i, decodeInvertsEncode i (hwf i hi)⟩

/-- One well-formed command. -/
theorem encoded_singleton {i : Instr} (h : i.wellFormed = true) {words : List CmdWord} (hw : some [encode i] = some words) :
    Encoded words :=
  ⟨[i], List.forall_mem_singleton.mpr h, (Option.some.inj hw).symm⟩

/-- One well-formed command, where a test passes. -/
theorem encoded_of_ite {c : Prop} [Decidable c] {i : Instr} (h : c → i.wellFormed = true) {words : List CmdWord}
    (hw : (if c then some [encode i] else none) = some words) : Encoded words := by
  split at hw
  · exact encoded_singleton (h ‹c›) hw
  · cases hw

/-- The supply of KEY is LDK commands. -/
theorem wellFormed_of_mem_keySupply {k : Nat} {bs : List Byte} {i : Instr} (h : i ∈ keySupply k bs) : i.wellFormed = true := by
  rw [keySupply_eq_loads] at h
  obtain ⟨p, -, rfl⟩ := List.mem_map.mp h
  rfl

/-- A well-formed pseudo-instruction stands for well-formed commands (R56). -/
theorem wellFormed_of_mem_expand {p : Pseudo} (hp : p.wellFormed = true) {i : Instr} (h : i ∈ p.expand) :
    i.wellFormed = true := by
  cases p with
  | key bytes =>
    obtain ⟨-, hlen⟩ : 1 ≤ bytes.length ∧ bytes.length ≤ 256 := of_decide_eq_true hp
    obtain hsupply | rfl := List.mem_append.mp h |>.imp_right List.mem_singleton.mp
    · exact wellFormed_of_mem_keySupply hsupply
    · exact decide_eq_true ((toNat_keyLength hlen).trans_le hlen)
  | encs bytes | decs bytes | absorb bytes =>
    obtain ⟨b, -, rfl⟩ := List.mem_map.mp h
    rfl

/-- A pseudo-instruction makes words of well-formed commands. -/
theorem encoded_of_assemblePseudo {ns : List Nat} {p : List Byte → Pseudo} {words : List CmdWord}
    (h : ((fitBytes ns).bind fun bs => assemblePseudo (p bs)) = some words) : Encoded words := by
  obtain ⟨bs, -, hwords⟩ := Option.bind_eq_some_iff.mp h
  unfold assemblePseudo at hwords
  split at hwords
  · cases hwords
    exact ⟨_, fun _ => wellFormed_of_mem_expand ‹_›, rfl⟩
  · cases hwords

/-- Every line makes words of well-formed commands: INITK above 256 is rejected (log entry 11). -/
theorem encoded_of_assembleLine {l : AsmLine} {words : List CmdWord} (h : assembleLine l = some words) : Encoded words := by
  have hkey {len : Nat} (hlen : len ≤ Config.keyMax) : (Instr.initk (BitVec.ofNat 16 len)).wellFormed = true :=
    decide_eq_true ((toNat_keyLength hlen).trans_le hlen)
  unfold assembleLine at h
  split at h
  case h_1 | h_4 | h_5 | h_6 => exact encoded_of_ite (fun _ => rfl) h
  case h_2 => exact encoded_of_ite hkey h
  case h_3 | h_7 | h_8 => exact encoded_singleton rfl h
  case h_9 | h_10 | h_11 | h_12 => exact encoded_of_assemblePseudo h
  case h_13 => cases h

/-- A text makes the words of its line, or none. -/
theorem encoded_of_assemble {text : List Char} {words : List CmdWord} (h : assemble text = some words) : Encoded words := by
  unfold assemble at h
  dsimp only at h
  split at h
  · cases h
    exact ⟨[], by simp, rfl⟩
  · obtain ⟨m, -, hm⟩ := Option.bind_eq_some_iff.mp h
    obtain ⟨ns, -, hline⟩ := Option.bind_eq_some_iff.mp hm
    exact encoded_of_assembleLine hline

/-- Settles O49: every word comes from `encode` of a well-formed command. -/
theorem assemblerMakesLegalWordsOnly : Obligations.AssemblerMakesLegalWordsOnly :=
  ⟨fun _ _ h => (encoded_of_assembleLine h).not_illegal, fun _ _ h => (encoded_of_assemble h).not_illegal⟩

end Sys2Proof.Machine
end

section
/-! PROOFS. The traces: how many accesses each command makes, and that replaying them leaves the memories the command leaves
(20_memory R31, R32, R44; 40_key_schedule R75; 70_reset R134). -/

namespace Sys2Proof.Machine

/-! ## The accesses of a command by its error (R134) -/

/-- The accesses of the work of a command that passes its tests. -/
def workTrace : Instr → State → List Access
  | .ldk idx byte, _ => [.write .keybuf idx byte]
  | .initk len, s => keyScheduleTrace len s
  | .initd, _ => fillTrace .pv Config.digestPv
  | .encb byte, s => (sessionStarts (.encb byte) s).flatMap transformTrace
  | .decb byte, s => (sessionStarts (.decb byte) s).flatMap transformTrace
  | .final len, s => (sessionStarts (.final len) s).flatMap transformTrace
  | .scrub, _ => zeroiseTrace
  | .stat, _ => []

/-- A command that raises an error makes no access, and another those of its work. -/
theorem accessTrace_eq (i : Instr) (s : State) :
    accessTrace i s = if Spec.errorOf i s.mode = .ok then workTrace i s else [] := by
  have hsession (hi : i.mnemonic ∈ [Mnemonic.encb, .decb, .final]) :
      (if Spec.errorOf i s.mode = .ok then (sessionStarts i s).flatMap transformTrace else []) = stepsTrace i s := by
    rw [errorOf_session hi, stepsTrace, transformStarts]
    by_cases hidle : s.mode = .idle <;> simp [hidle]
  cases i with
  | ldk | initd | scrub | stat => rfl
  | initk len =>
    by_cases herr : Spec.errorOf (.initk len) s.mode = .ok
    · obtain ⟨hpos, hlen⟩ := errorOf_initk_eq_ok_iff.mp herr
      rw [if_pos herr, accessTrace_initk s hpos hlen]
      rfl
    · rw [if_neg herr]
      refine if_pos ?_
      by_contra hpasses
      obtain ⟨hlong, hzero⟩ := not_or.mp hpasses
      exact herr (errorOf_initk_eq_ok_iff.mpr ⟨Nat.pos_of_ne_zero fun h => hzero (BitVec.eq_of_toNat_eq h), not_lt.mp hlong⟩)
  | encb | decb | final => exact (hsession (by simp [Instr.mnemonic])).symm

/-! ## Counting -/

/-- The accesses of a trace: reads and writes of PV, reads and writes of KEYBUF (R134). -/
def counts (l : List Access) : Nat × Nat × Nat × Nat :=
  (countReads .pv l, countWrites .pv l, countReads .keybuf l, countWrites .keybuf l)

theorem counts_eq_iff {l : List Access} {a b c d : Nat} : counts l = (a, b, c, d) ↔
    countReads .pv l = a ∧ countWrites .pv l = b ∧ countReads .keybuf l = c ∧ countWrites .keybuf l = d := by
  simp only [counts, Prod.mk.injEq]

theorem counts_append (l l' : List Access) : counts (l ++ l') = counts l + counts l' := by
  simp only [counts, countReads_append, countWrites_append, Prod.mk_add_mk]

theorem counts_transformTrace (s : State) : counts (transformTrace s) = (14, 4, 0, 0) := rfl

theorem counts_fillTrace_pv (f : Byte → Byte) : counts (fillTrace .pv f) = (0, 256, 0, 0) := by
  simp [counts]

theorem counts_zeroiseTrace : counts zeroiseTrace = (0, 256, 0, 256) := by
  simp [counts, zeroiseTrace]

/-- So many transform steps make so many times the accesses of one. -/
theorem counts_flatMap_transformTrace (starts : List State) :
    counts (starts.flatMap transformTrace) = (14 * starts.length, 4 * starts.length, 0, 0) := by
  induction starts with
  | nil => rfl
  | cons s starts ih =>
    rw [List.flatMap_cons, counts_append, ih, counts_transformTrace, List.length_cons]
    simp only [Prod.mk_add_mk, Prod.mk.injEq]
    exact ⟨by omega, by omega, trivial⟩

/-- Every draw reads PV once and KEYBUF once: an attempt makes `d` draws. -/
theorem counts_attemptsTrace (len : BitVec 16) (limit : Byte) (k : Nat) (s : State) :
    ∃ d, 1 ≤ d ∧ counts (attemptsTrace len limit k s) = (d, 0, d, 0) := by
  induction k generalizing s with
  | zero => exact ⟨1, le_rfl, rfl⟩
  | succ k ih =>
    rw [attemptsTrace]
    split
    · exact ⟨1, le_rfl, rfl⟩
    · obtain ⟨d, -, hd⟩ := ih { draw len s with transients.rej := (draw len s).transients.rej + 1 }
      refine ⟨1 + d, Nat.le_add_right 1 d, ?_⟩
      rw [counts_append, hd]
      rfl

/-- `k` positions of the shuffle make `d` draws and `k` exchanges. -/
theorem counts_shuffleTrace (len : BitVec 16) (k : Nat) (s : State) :
    ∃ d, k ≤ d ∧ counts (shuffleTrace len k s) = (d + 2 * k, 2 * k, d, 0) := by
  induction k generalizing s with
  | zero => exact ⟨0, le_rfl, rfl⟩
  | succ k ih =>
    obtain ⟨d, hd, hcounts⟩ := counts_attemptsTrace len (BitVec.ofNat 8 k) Config.maxRejections
      { s with transients := { s.transients with i := BitVec.ofNat 8 k, mask := maskFor (BitVec.ofNat 8 k), rej := 0 } }
    obtain ⟨d', hd', hcounts'⟩ := ih (shufflePosition len (BitVec.ofNat 8 k) s)
    have hexchange (t : State) : counts (exchangeTrace t) = (2, 2, 0, 0) := rfl
    refine ⟨d + d', by omega, ?_⟩
    rw [shuffleTrace, counts_append, hcounts', shufflePositionTrace, counts_append, keyrandTrace, hexchange, hcounts]
    simp only [Prod.mk_add_mk, Prod.mk.injEq]
    exact ⟨by omega, by omega, by omega, trivial⟩

/-- A key schedule of `d` draws: the identity fill, 256 positions, and the register load (R75). -/
theorem counts_keyScheduleTrace (len : BitVec 16) (s : State) :
    ∃ d, 256 ≤ d ∧ d ≤ 2973 ∧ counts (keyScheduleTrace len s) = (d + 517, 768, d, 0) := by
  obtain ⟨d, hd, hcounts⟩ := counts_shuffleTrace len 256 (beginSchedule s)
  have hload (t : State) : counts (loadTrace t) = (5, 0, 0, 0) := rfl
  have htotal : counts (keyScheduleTrace len s) = (d + 517, 768, d, 0) := by
    rw [keyScheduleTrace, counts_append, counts_append, counts_fillTrace_pv, hload, Config.pvSize, hcounts]
    simp only [Prod.mk_add_mk, Prod.mk.injEq]
    exact ⟨by omega, trivial, by omega, trivial⟩
  refine ⟨d, hd, ?_, htotal⟩
  obtain ⟨-, -, hreads, -⟩ := counts_eq_iff.mp htotal
  exact hreads ▸ countReads_keyScheduleTrace_le len s

/-- FINAL runs 256 + n transform steps (R95). -/
theorem sessionStarts_final_length (len : BitVec 16) (s : State) :
    (sessionStarts (.final len) s).length = 256 + len.toNat := by
  rw [sessionStarts, List.length_append, whitenStarts_length, squeezeStarts_length]
  rfl

/-- Settles O33: no access on an error, and else those of the work, counted part by part. -/
theorem accessCountsPerCommand : Obligations.AccessCountsPerCommand := by
  intro i s _
  have hcounts := congrArg counts (accessTrace_eq i s)
  dsimp only
  by_cases herr : Spec.errorOf i s.mode = .ok
  · rw [if_pos herr] at hcounts
    rw [if_neg (not_not.mpr herr)]
    cases i with
    | ldk | encb | decb | stat => exact hcounts
    | initk len =>
      obtain ⟨d, hleast, hmost, hd⟩ := counts_keyScheduleTrace len s
      exact ⟨d, hleast, hmost, hcounts.trans hd⟩
    | initd => exact hcounts.trans (counts_fillTrace_pv _)
    | final len =>
      have hfinal := counts_flatMap_transformTrace (sessionStarts (.final len) s)
      rw [sessionStarts_final_length] at hfinal
      exact hcounts.trans hfinal
    | scrub => exact hcounts.trans counts_zeroiseTrace
  · rw [if_neg herr] at hcounts
    rw [if_pos herr]
    exact hcounts

/-! ## Transform steps (R134) -/

/-- Settles O47: the starts of the transform steps are counted, and ENCB, DECB and FINAL make the accesses of each. -/
theorem transformStepsPerCommand : Obligations.TransformStepsPerCommand := by
  intro i s
  refine ⟨?_, fun hi => ?_, fun u _ => transformTrace_counts u⟩
  · rw [transformSteps, transformStarts]
    split
    · rfl
    · cases i with
      | final len => exact sessionStarts_final_length len s
      | ldk | initk | initd | encb | decb | scrub | stat => rfl
  · cases i with
    | encb | decb | final => rfl
    | ldk | initk | initd | scrub | stat => simp [Instr.mnemonic] at hi

/-! ## The reset sequence -/

/-- The 256 indices, in the order of a fill. -/
def allBytes : List Byte := (List.range 256).map (BitVec.ofNat 8)

theorem mem_allBytes (k : Byte) : k ∈ allBytes :=
  List.mem_map.mpr ⟨k.toNat, List.mem_range.mpr k.isLt, by rw [BitVec.ofNat_toNat, BitVec.setWidth_eq]⟩

/-- A fill writes every index once. -/
theorem fillTrace_eq_map (space : Space) (f : Byte → Byte) :
    fillTrace space f = allBytes.map fun k => .write space k (f k) := by
  rw [allBytes, List.map_map]
  rfl

theorem mem_fillTrace (space : Space) (f : Byte → Byte) (k : Byte) : .write space k (f k) ∈ fillTrace space f := by
  rw [fillTrace_eq_map]
  exact List.mem_map_of_mem (mem_allBytes k)

/-- The zeroing of both memories writes 0 at every index of each. -/
theorem mem_zeroiseTrace (k : Byte) : .write .pv k 0 ∈ zeroiseTrace ∧ .write .keybuf k 0 ∈ zeroiseTrace :=
  ⟨List.mem_append_left _ (mem_fillTrace .pv (fun _ => 0) k), List.mem_append_right _ (mem_fillTrace .keybuf (fun _ => 0) k)⟩

/-- Settles O46: the step that releases a high `rst` zeroes both memories, and no other turn of the host makes an access. -/
theorem resetMakesTheAccessesOfScrub : Obligations.ResetMakesTheAccessesOfScrub := by
  refine ⟨fun s rest hfetch hhost hreset => ?_, fun s hfetch hother => ?_, fun s w hfetch hillegal => ?_⟩
  · have htrace : stepTrace s = zeroiseTrace := by
      simp [stepTrace, hfetch, hhost, hostActTrace, hreset]
    rw [htrace]
    exact ⟨counts_zeroiseTrace, mem_zeroiseTrace⟩
  · obtain ⟨w, hw, -⟩ | ⟨-, ⟨rest, hhost⟩, hreset, -⟩ | ⟨-, -, htrace⟩ := stepTrace_cases s
    · cases hfetch.symm.trans hw
    · exact absurd ⟨hreset, congrArg List.head? hhost⟩ hother
    · exact htrace
  · obtain ⟨e, he⟩ := (decode_error_iff_illegal w).mpr hillegal
    simp only [stepTrace, hfetch, wordTrace, he]

end Sys2Proof.Machine
end

section
/-! PROOFS. The recorded accesses are those of the work: replayed, every read finds its byte, and the writes leave the memories
that the command, the step or the reset sequence leaves (20_memory R31, R44; 40_key_schedule R75; 70_reset R122). -/

namespace Sys2Proof.Machine

/-! ## Replaying a trace between two states -/

/-- A trace, carried out on the memories of `s`, reads what it recorded and leaves the memories of `t`. -/
def Replays (l : List Access) (s t : State) : Prop := replay l (s.pv, s.keybuf) = some (t.pv, t.keybuf)

theorem Replays.append {l l' : List Access} {s t u : State} (h : Replays l s t) (h' : Replays l' t u) :
    Replays (l ++ l') s u := by
  rw [Replays, replay_append, h]
  exact h'

/-- Reads of PV as it stands find their bytes. -/
theorem replays_reads (s : State) (is : List Byte) : Replays (is.map (readsPv s)) s s := by
  induction is with
  | nil => rfl
  | cons i is ih => exact (if_pos rfl).trans ih

/-- A read of PV and the write of what it read. -/
theorem replays_move (s : State) (i j : Byte) :
    Replays [readsPv s j, .write .pv i (pvAt s j)] s (setPv s i (pvAt s j)) := if_pos rfl

/-! ## The transform -/

/-- One transform step, M1 to M19: index update, three moves, the last write, and the reads of S8 to S11 (R44). -/
theorem replays_transformTrace (s : State) : Replays (transformTrace s) s (transform s) := by
  let s2 := indexUpdate s
  let s4 := setPv s2 s2.right (pvAt s2 s2.pride)
  let s5 := setPv s4 s4.pride (pvAt s4 s4.left)
  let s6 := setPv s5 s5.left (pvAt s5 s5.radix)
  let s8 := formMix (fourMoves s2)
  have hindex : Replays [readsPv s s.radix, readsPv s2 s2.right] s s2 := replays_reads s2 [s.radix, s2.right]
  have hlast : Replays [.write .pv s6.radix (pvAt s2 s2.right)] s6 s8 := rfl
  have hmix := replays_reads s8 [pvAt s2 s2.right, s8.pride, s8.radix, s8.transients.a, s8.left, s8.right, s8.chasm,
    s8.transients.b, pvAt s8 s8.transients.b]
  exact hindex.append <| (replays_move s2 _ _).append <| (replays_move s4 _ _).append <| (replays_move s5 _ _).append <|
    hlast.append hmix

/-- The transform steps of the whitening pass (R95). -/
theorem replays_whitenStarts (k : Nat) (s : State) :
    Replays ((whitenStarts k s).flatMap transformTrace) s (whiten k s) := by
  induction k generalizing s with
  | zero => rfl
  | succ k ih =>
    let s' : State := { s with transients.w := BitVec.ofNat 9 k }
    have hbody : Replays (transformTrace s') s (encbBody (s'.transients.w.setWidth 8) s') := replays_transformTrace s'
    exact hbody.append (ih _)

/-- The transform steps of the squeeze (R95). -/
theorem replays_squeezeStarts (k : Nat) (s : State) :
    Replays ((squeezeStarts k s).flatMap transformTrace) s (squeeze k s).1 := by
  induction k generalizing s with
  | zero => rfl
  | succ k ih =>
    let s' : State := { s with transients.n := s.transients.n + 1 }
    have hbody : Replays (transformTrace s') s (encbBody Config.squeezeByte s') := replays_transformTrace s'
    exact hbody.append (ih _)

/-- The transform steps of FINAL (R95). -/
theorem replays_finalStarts (len : BitVec 16) (s : State) :
    Replays ((sessionStarts (.final len) s).flatMap transformTrace) s (finalBody len s).1 := by
  have hwhitened (k : Nat) :
      Replays ((whitenStarts k s).flatMap transformTrace) s { whiten k s with transients.n := 0 } := replays_whitenStarts k s
  rw [sessionStarts, List.flatMap_append]
  exact (hwhitened Config.whitenSteps).append (replays_squeezeStarts len.toNat _)

/-! ## Fills -/

/-- A memory after the writes of a list of entries, each with what `f` gives for it. -/
def writeAll (f : Byte → Byte) (ks : List Byte) (m : Memory) : Memory := ks.foldl (fun m k => Memory.write m k (f k)) m

theorem writeAll_cons (f : Byte → Byte) (k : Byte) (ks : List Byte) (m : Memory) :
    writeAll f (k :: ks) m = writeAll f ks (Memory.write m k (f k)) := rfl

theorem read_writeAll (f : Byte → Byte) (ks : List Byte) (m : Memory) (x : Byte) :
    Memory.read (writeAll f ks m) x = if x ∈ ks then f x else Memory.read m x := by
  induction ks generalizing m with
  | nil => rfl
  | cons k ks ih =>
    rw [writeAll_cons, ih, Memory.read_write]
    by_cases hx : x = k <;> simp [hx]

theorem wf_writeAll (f : Byte → Byte) (ks : List Byte) {m : Memory} (h : Memory.wf m = true) :
    Memory.wf (writeAll f ks m) = true := by
  induction ks generalizing m with
  | nil => exact h
  | cons k ks ih => exact ih (Memory.wf_write k (f k) h)

/-- Writing every entry of a canonical memory is the fill (R31, log entry 3). -/
theorem writeAll_allBytes (f : Byte → Byte) {m : Memory} (h : Memory.wf m = true) :
    writeAll f allBytes m = Memory.fill f := by
  refine Memory.wf_ext (wf_writeAll f allBytes h) (Memory.wf_fill f) fun x => ?_
  rw [read_writeAll, if_pos (mem_allBytes x), Memory.read_fill]

/-- A fill of PV. -/
theorem replay_fillTrace_pv (f : Byte → Byte) {m : Memory × Memory} (h : Memory.wf m.1 = true) :
    replay (fillTrace .pv f) m = some (Memory.fill f, m.2) := by
  have hwrites (ks : List Byte) (m : Memory × Memory) :
      replay (ks.map fun k => .write .pv k (f k)) m = some (writeAll f ks m.1, m.2) := by
    induction ks generalizing m with
    | nil => rfl
    | cons k ks ih => exact ih _
  rw [fillTrace_eq_map, hwrites, writeAll_allBytes f h]

/-- A fill of KEYBUF. -/
theorem replay_fillTrace_keybuf (f : Byte → Byte) {m : Memory × Memory} (h : Memory.wf m.2 = true) :
    replay (fillTrace .keybuf f) m = some (m.1, Memory.fill f) := by
  have hwrites (ks : List Byte) (m : Memory × Memory) :
      replay (ks.map fun k => .write .keybuf k (f k)) m = some (m.1, writeAll f ks m.2) := by
    induction ks generalizing m with
    | nil => rfl
    | cons k ks ih => exact ih _
  rw [fillTrace_eq_map, hwrites, writeAll_allBytes f h]

/-- The zeroing of both memories (R100, R122). -/
theorem replay_zeroiseTrace {m : Memory × Memory} (hpv : Memory.wf m.1 = true) (hkeybuf : Memory.wf m.2 = true) :
    replay zeroiseTrace m = some (Memory.zeros, Memory.zeros) := by
  have hzeros : Memory.fill (fun _ => (0 : Byte)) = Memory.zeros := Memory.fill_zero
  rw [zeroiseTrace, replay_append, replay_fillTrace_pv _ hpv, hzeros, Option.bind_some,
    replay_fillTrace_keybuf _ (m := (Memory.zeros, m.2)) hkeybuf, hzeros]

/-! ## The key schedule (R75) -/

/-- A draw reads PV and KEYBUF as they stand, and writes neither. -/
theorem replays_drawTrace (len : BitVec 16) (s : State) : Replays (drawTrace s) s (draw len s) := by
  rw [draw_eq]
  exact (if_pos rfl).trans (if_pos rfl)

theorem replays_attemptsTrace (len : BitVec 16) (limit : Byte) (k : Nat) (s : State) :
    Replays (attemptsTrace len limit k s) s (attempts len limit k s) := by
  induction k generalizing s with
  | zero => exact replays_drawTrace len s
  | succ k ih =>
    rw [attemptsTrace, attempts]
    dsimp only
    split
    · exact replays_drawTrace len s
    · have hreject : Replays (drawTrace s) s { draw len s with transients.rej := (draw len s).transients.rej + 1 } :=
        replays_drawTrace len s
      exact hreject.append (ih _)

/-- The exchange reads both entries before it writes them. -/
theorem replays_exchangeTrace (s : State) : Replays (exchangeTrace s) s (exchange s) := (if_pos rfl).trans (if_pos rfl)

theorem replays_shuffleTrace (len : BitVec 16) (k : Nat) (s : State) :
    Replays (shuffleTrace len k s) s (shuffle len k s) := by
  induction k generalizing s with
  | zero => rfl
  | succ k ih =>
    let s' : State := { s with transients.i := BitVec.ofNat 8 k }
    have hkeyrand : Replays (keyrandTrace len (BitVec.ofNat 8 k) s') s (keyrand len (BitVec.ofNat 8 k) s') :=
      replays_attemptsTrace len _ _ _
    exact (hkeyrand.append (replays_exchangeTrace _)).append (ih _)

/-- The whole key schedule: the identity fill, the shuffle, and the register load. -/
theorem replays_keyScheduleTrace (len : BitVec 16) {s : State} (h : Memory.wf s.pv = true) :
    Replays (keyScheduleTrace len s) s (keySchedule len s) := by
  have hbegin : Replays (fillTrace .pv fun k => k) s (beginSchedule s) := by
    rw [Replays, replay_fillTrace_pv _ h, beginSchedule_pv, beginSchedule_keybuf]
  have hload (t : State) : Replays (loadTrace t) t (loadRegisters t) :=
    replays_reads t [1, 3, 5, 7, t.transients.rsum]
  exact (hbegin.append (replays_shuffleTrace len _ _)).append (hload _)

/-! ## Commands and steps -/

/-- The accesses of a command's work. -/
theorem replays_workTrace (i : Instr) {s : State} (h : MemoryInv s) : Replays (workTrace i s) s (workOf i s).1 := by
  obtain ⟨hpv, hkeybuf⟩ := h
  cases i with
  | ldk | stat => rfl
  | initk len => exact replays_keyScheduleTrace len hpv
  | initd => exact replay_fillTrace_pv _ hpv
  | encb | decb => exact (replays_transformTrace s).append (l' := []) rfl
  | final len => exact replays_finalStarts len s
  | scrub => exact replay_zeroiseTrace hpv hkeybuf

/-- The accesses of a command, none on an error. -/
theorem replays_accessTrace (i : Instr) {s : State} (h : MemoryInv s) : Replays (accessTrace i s) s (endOf i s) := by
  rw [accessTrace_eq, endOf]
  split
  · exact replays_workTrace i h
  · rfl

/-- The accesses of an accepted word, none for an illegal one. -/
theorem replays_wordTrace {w : CmdWord} {s t : State} (h : MemoryInv s) (hexec : execWord w s = .next t) :
    Replays (wordTrace w s) s t := by
  unfold wordTrace
  cases hdecode : decode w with
  | ok i =>
    rw [execWord_of_decode_ok hdecode, exec_eq] at hexec
    cases hexec
    exact replays_accessTrace i h
  | error e =>
    cases (execWord_of_decode_error hdecode s).symm.trans hexec
    rfl

/-- A turn of the host that does not release a high `rst` leaves both memories alone. -/
theorem HostTurn.memories {s t : State} (h : HostTurn s t) (hother : ¬ (s.inReset = true ∧ s.host.head? = some .releaseRst)) :
    t.pv = s.pv ∧ t.keybuf = s.keybuf := by
  cases h with
  | pause _ ht | offer _ _ _ _ _ ht | take _ _ ht | assert _ _ ht | stayLow _ _ _ ht => exact ht ▸ ⟨rfl, rfl⟩
  | release rest hhost hreset _ => exact absurd ⟨hreset, congrArg List.head? hhost⟩ hother

/-- The accesses of a step: those of the accepted word, of the reset sequence, or none. -/
theorem replays_stepTrace {s t : State} (h : MemoryInv s) (hstep : step s = .next t) : Replays (stepTrace s) s t := by
  obtain ⟨w, hfetch, htrace⟩ | ⟨hfetch, ⟨rest, hhost⟩, hreset, htrace⟩ | ⟨hfetch, hother, htrace⟩ := stepTrace_cases s
  · rw [step_of_fetch hfetch] at hstep
    rw [htrace]
    exact replays_wordTrace (s := consume s) h hstep
  · rw [step_of_no_fetch hfetch, hostTurn_of_cons hhost] at hstep
    obtain ⟨hpv, hkeybuf⟩ := h
    have hrelease := releaseReset_of_high (s := { s with host := rest }) hreset
    cases hstep
    rw [htrace, hrelease]
    exact replay_zeroiseTrace hpv hkeybuf
  · rw [step_of_no_fetch hfetch] at hstep
    obtain ⟨hpv, hkeybuf⟩ := (hostTurn_cases hstep).memories hother
    rw [htrace, Replays, hpv, hkeybuf]
    rfl

/-- Settles O32: trace and work are built alike, part by part. -/
theorem traceReplaysToTheSameMemories : Obligations.TraceReplaysToTheSameMemories := by
  refine ⟨fun i s t _ h hexec => ?_, fun s t h hstep => replays_stepTrace h hstep⟩
  obtain rfl : endOf i s = t := Host.Outcome.next.inj ((exec_eq i s).symm.trans hexec)
  exact replays_accessTrace i h

end Sys2Proof.Machine
end
